-- ==== Sys2Proof/Word.lean ====
section
/-! DEFINITION. The word types of the drawer core (`00_scope.md` R7, R9). -/

namespace Sys2Proof

/-- A byte of the binary program (R9). -/
abbrev Byte := BitVec 8

/-- `IW` = 16: an integer register, an immediate (R7). -/
abbrev U16 := BitVec 16

/-- A jump address: a 16-bit instruction index (R7, R88). -/
abbrev Addr := BitVec 16

/-- `FW` = 64: one IEEE 754 binary64 datum, as its bit pattern (R7, R23). -/
abbrev F64 := BitVec 64

/-- `PIXW` = 32: a signed pixel coordinate; `BitVec.toInt` reads it (R8, R50). -/
abbrev Coord := BitVec 32

/-- `COLORW` = 24: the colour of a pixel event (R7, R50). -/
abbrev Colour := BitVec 24

end Sys2Proof
end

