-- ==== Sys2Proof/Config.lean ====
section
/-! DEFINITION. What is fixed for the machine (`00_scope.md` R7, R8), and the free values: constants
without a body, which no proof can evaluate. -/

namespace Sys2Proof

/-- `VERSION`: the one supported format version (R8; the spec's D5). -/
def Config.version : Byte := 1

/-- `MAXPROG`: the largest instruction count the spec gives a meaning to (R8, R63; D19). -/
def Config.maxProg : Nat := 65536

/-- `HDRLEN`: bytes of the program header (R7). -/
def Config.hdrLen : Nat := 5

/-- `DEGMOD`: the heading is taken modulo this (R7). -/
def Config.degMod : Nat := 360

/-- The four binary64 operations whose NaN results the spec leaves open (R131, R132). -/
inductive FOp
  | add | sub | mul | div
deriving DecidableEq, Repr

/-- FREE VALUE (log 6). The raw choice of `EPS`; `Machine.eps` keeps it within `0 < EPS < 1` (R8, U3). -/
opaque Config.epsFree : F64

/-- FREE VALUE (log 7). `COLOR`, the colour of every pixel event (R8, R50, U4). -/
opaque Config.color : Colour

/-- FREE VALUE (log 8). The entries `DIR(1)..DIR(359)`; `Machine.dir` fixes `DIR(0)` (R153, U2). -/
opaque Config.dirFree : Nat → F64 × F64

/-- FREE VALUE (log 5). The raw choice of the NaN an operation gives on its operands;
`Machine.nanResult` keeps it among the NaNs (R132, U1). -/
opaque Config.nanFree : FOp → F64 → F64 → F64

end Sys2Proof
end

