-- ==== Sys2Proof/Syntax.lean ====
section
/-! DEFINITION. The decoded instruction (`30_encoding.md` R92), its mnemonic and its format. -/

namespace Sys2Proof

/-- A register id (R20, R21): its bank is fixed by its identity (R26). `int k` is `xi[k]`, `flt k` is
`xf[k]`; the numbers 0x0..0xF of R21 are given in `Decode.lean`. -/
inductive RegId
  | int (k : Fin 8)
  | flt (k : Fin 8)
deriving DecidableEq, Repr

/-- A Value operand: a tagged union (R86, R92). -/
inductive Value
  | imm (n : U16)
  | reg (r : RegId)
deriving DecidableEq, Repr

/-- The closed set of decoded instructions (R92). The immediate and the register row of a mnemonic
in `opcode_table.json` are the two tags of its Value operand. -/
inductive Instr
  | drw
  | fwd
  | sto (rd : RegId) (v : Value)
  | inc (rd : RegId)
  | dec (rd : RegId)
  | add (rd : RegId) (v : Value)
  | sub (rd : RegId) (v : Value)
  | mul (rd : RegId) (v : Value)
  | div (rd : RegId) (v : Value)
  | jnz (rd : RegId) (a : Addr)
  | jeq (rd : RegId) (v : Value) (a : Addr)
  | jne (rd : RegId) (v : Value) (a : Addr)
  | jgt (rd : RegId) (v : Value) (a : Addr)
  | jlt (rd : RegId) (v : Value) (a : Addr)
  | hlt
deriving DecidableEq, Repr

/-- The fifteen mnemonics (R90). -/
inductive Mnemonic
  | drw | fwd | sto | inc | dec | add | sub | mul | div | jnz | jeq | jne | jgt | jlt | hlt
deriving DecidableEq, Repr

/-- The five instruction formats (R84). -/
inductive Format
  | N | R | RV | RA | RVA
deriving DecidableEq, Repr

/-- Which instruction a decoded value is (R91). -/
def Instr.mnemonic : Instr → Mnemonic
  | .drw => .drw
  | .fwd => .fwd
  | .sto _ _ => .sto
  | .inc _ => .inc
  | .dec _ => .dec
  | .add _ _ => .add
  | .sub _ _ => .sub
  | .mul _ _ => .mul
  | .div _ _ => .div
  | .jnz _ _ => .jnz
  | .jeq _ _ _ => .jeq
  | .jne _ _ _ => .jne
  | .jgt _ _ _ => .jgt
  | .jlt _ _ _ => .jlt
  | .hlt => .hlt

/-- The Value operand of the nine value opcodes (R13, R92). -/
def Instr.value? : Instr → Option Value
  | .drw => none
  | .fwd => none
  | .sto _ v => some v
  | .inc _ => none
  | .dec _ => none
  | .add _ v => some v
  | .sub _ v => some v
  | .mul _ v => some v
  | .div _ v => some v
  | .jnz _ _ => none
  | .jeq _ v _ => some v
  | .jne _ v _ => some v
  | .jgt _ v _ => some v
  | .jlt _ v _ => some v
  | .hlt => none

/-- The Address of the five jump opcodes (R13, R88). -/
def Instr.target? : Instr → Option Addr
  | .drw => none
  | .fwd => none
  | .sto _ _ => none
  | .inc _ => none
  | .dec _ => none
  | .add _ _ => none
  | .sub _ _ => none
  | .mul _ _ => none
  | .div _ _ => none
  | .jnz _ a => some a
  | .jeq _ _ a => some a
  | .jne _ _ a => some a
  | .jgt _ _ a => some a
  | .jlt _ _ a => some a
  | .hlt => none

/-- What a binary program carries (R80, R81, R93): the header fields and the instructions. -/
structure Image where
  version : Byte
  width : U16
  height : U16
  prog : List Instr
deriving DecidableEq, Repr

end Sys2Proof
end

