-- ==== Sys2Proof/Machine/State.lean ====
section
/-! DEFINITION. The machine's state as plain data (`10_state.md` R20 to R41, R50 to R53), its reset, and
the reasons a step can stop. -/

namespace Sys2Proof.Machine

/-- The run-time fault causes (`60_exceptions.md` R230). -/
inductive Cause
  | divideByZero
  | pcOutOfRange
deriving DecidableEq, Repr

/-- The run status (R34). `faulted cause info` holds `fcause` and `finfo` (R35, R40); `info` is the `pc`
at the fault. -/
inductive Status
  | running
  | halted
  | faulted (cause : Cause) (info : Nat)
deriving DecidableEq, Repr

/-- One pixel event (R50): the coordinates are signed, `BitVec.toInt` reads them. -/
structure Pixel where
  x : Coord
  y : Coord
  colour : Colour
deriving DecidableEq, Repr

/-- The one kind of diagnostic (R53, R135). -/
inductive DiagKind
  | wrap
deriving DecidableEq, Repr

/-- One diagnostic event `Diag(kind, at)`: `index` is the index of the instruction (R53). -/
structure Diag where
  kind : DiagKind
  index : Nat
deriving DecidableEq, Repr

/-- The architectural state with its fixed parameters and its two output streams (R37, R40). -/
structure State where
  /-- integer registers `A`..`H` (R22) -/
  xi : Vector U16 8
  /-- float registers `S`..`Z`, as binary64 bit patterns (R23) -/
  xf : Vector F64 8
  /-- program counter: an instruction index, a natural number (R28, R31) -/
  pc : Nat
  /-- pen-down flag (R32) -/
  pen : Bool
  /-- run status, with the cause and the information value of a fault (R34, R35) -/
  status : Status
  /-- `hdr_version` (R36) -/
  hdrVersion : Byte
  /-- `hdr_width` (R36) -/
  hdrWidth : U16
  /-- `hdr_height` (R36) -/
  hdrHeight : U16
  /-- instruction store, immutable during a run (R38, R62) -/
  prog : List Instr
  /-- pixel events emitted, oldest first (R50, R51) -/
  pixout : List Pixel
  /-- diagnostic events emitted, oldest first (R53) -/
  diagout : List Diag
deriving DecidableEq, Repr

/-- Why `step` has no next state. Both are raised by `step` alone, on a terminal status: the run is over
and no step exists (R121, R136, U11). Safe: nothing is claimed of a machine stepped after its end. -/
inductive Fault
  /-- raised by `step` when the status is `halted`; safe (R211) -/
  | runHalted
  /-- raised by `step` when the status is `faulted cause info`; safe (R232, R235) -/
  | runFaulted (cause : Cause) (info : Nat)
deriving DecidableEq, Repr

/-- Why an instruction has no meaning here. -/
inductive Refusal
  /-- raised by an arm of `exec` whose instruction has no meaning yet; safe. No arm raises it. -/
  | notModelled (mnemonic : String)
deriving DecidableEq, Repr

/-- The answer of a meaning and of a step. -/
abbrev Out := Host.Outcome State Fault Refusal

/-- The machine right after reset (R41, R260) with no program loaded yet (log 1): an empty store and
the header of an empty canvas. `load` gives the state after a successful load. -/
def State.reset : State where
  xi := Vector.replicate 8 0
  xf := Vector.replicate 8 0
  pc := 0
  pen := false
  status := .running
  hdrVersion := Config.version
  hdrWidth := 0
  hdrHeight := 0
  prog := []
  pixout := []
  diagout := []

end Sys2Proof.Machine
end

