-- ==== Sys2Proof/Machine/Float.lean ====
section
/-! DEFINITION. IEEE 754 binary64 (`40_execution_loop.md` R127 to R134).

Every finite datum is a whole number of *units* of 2^-1074 (the least subnormal), so values are exact
integers; an operation computes the exact result and rounds it once. -/

namespace Sys2Proof.Machine

/-! ### Data -/

/-- A unit is 2^-1074. Irreducible, so that no proof computes the power by accident. -/
@[irreducible] def unitExp : Nat := 1074

/-- How many units make 1.0. -/
def unitsPerOne : Nat := 2 ^ unitExp

/-- Exponent and fraction fields of an infinity; magnitudes above it are NaNs. -/
def infBits : Nat := 0x7FF0000000000000

/-- Bits 62..0: everything but the sign. -/
def magBits (f : F64) : Nat := f.toNat % 2 ^ 63

/-- Bit 63. -/
def isNeg (f : F64) : Bool := f.msb

def isNaN (f : F64) : Bool := decide (infBits < magBits f)

def isInf (f : F64) : Bool := magBits f == infBits

def isFinite (f : F64) : Bool := decide (magBits f < infBits)

/-- Either zero (R133). -/
def isZero (f : F64) : Bool := magBits f == 0

/-- The magnitude given by exponent-and-fraction bits, in units. An infinity reads as the power of two
above every finite magnitude, which is how it compares. -/
def unitsOfBits (b : Nat) : Nat :=
  if b / 2 ^ 52 = 0 then b else (2 ^ 52 + b % 2 ^ 52) * 2 ^ (b / 2 ^ 52 - 1)

/-- The value of a datum that is not a NaN, in units. -/
def valueOf (f : F64) : Int :=
  if isNeg f then -(unitsOfBits (magBits f) : Int) else (unitsOfBits (magBits f) : Int)

/-- The datum with a sign and magnitude bits. -/
def ofBits (neg : Bool) (b : Nat) : F64 := BitVec.ofNat 64 ((if neg then 2 ^ 63 else 0) + b)

def zeroF (neg : Bool) : F64 := ofBits neg 0

def infF (neg : Bool) : F64 := ofBits neg infBits

/-- 1.0 -/
def oneF : F64 := 0x3FF0000000000000

/-- The canonical quiet NaN of R132. -/
def canonicalNaN : F64 := 0x7FF8000000000000

/-- The NaN an operation gives: any NaN, which one is free (R132, U1, log 5). -/
def nanResult (op : FOp) (a b : F64) : F64 :=
  if isNaN (Config.nanFree op a b) then Config.nanFree op a b else canonicalNaN

/-! ### Rounding -/

/-- The magnitude bits of `n / d` units, rounded to nearest, ties to even, as if the exponent had no
upper bound (R131). `e` places the 53-bit significand; below 2^53 units it is 0, so subnormals are kept.
A significand that rounds up to 2^53 carries into the exponent. -/
def roundBits (n d : Nat) : Nat :=
  let e := Nat.log2 (n / d) - 52
  let w := d * 2 ^ e
  let q := n / w
  let r := n % w
  e * 2 ^ 52 + (if w < 2 * r ∨ (2 * r = w ∧ q % 2 = 1) then q + 1 else q)

/-- The rounded magnitude; one too large is the infinity (R131). -/
def roundMag (n d : Nat) : Nat := min (roundBits n d) infBits

/-! ### Operations -/

/-- Sign flip. -/
def fneg (a : F64) : F64 := a ^^^ 0x8000000000000000

/-- Absolute value: clears the sign bit, a NaN stays a NaN (R131). -/
def fabs (a : F64) : F64 := a &&& 0x7FFFFFFFFFFFFFFF

/-- The sum of two data, `nan` standing for a NaN result (R131). An exact zero sum is `+0.0` unless both
operands are negative (IEEE 754, log 16). -/
def sumWith (nan a b : F64) : F64 :=
  if isNaN a || isNaN b then nan
  else if isInf a then (if isInf b && (isNeg a != isNeg b) then nan else a)
  else if isInf b then b
  else
    let v := valueOf a + valueOf b
    if v = 0 then zeroF (isNeg a && isNeg b) else ofBits (decide (v < 0)) (roundMag v.natAbs 1)

def fadd (a b : F64) : F64 := sumWith (nanResult .add a b) a b

def fsub (a b : F64) : F64 := sumWith (nanResult .sub a b) a (fneg b)

/-- Product, sign the exclusive-or of the signs; `0 * inf` is a NaN (R131). -/
def fmul (a b : F64) : F64 :=
  let neg := isNeg a != isNeg b
  if isNaN a || isNaN b then nanResult .mul a b
  else if isInf a || isInf b then
    (if isZero a || isZero b then nanResult .mul a b else infF neg)
  else ofBits neg (roundMag (unitsOfBits (magBits a) * unitsOfBits (magBits b)) unitsPerOne)

/-- Quotient, sign the exclusive-or of the signs; `0/0` and `inf/inf` are NaNs, a non-zero number by a
zero is an infinity (R131). -/
def fdiv (a b : F64) : F64 :=
  let neg := isNeg a != isNeg b
  if isNaN a || isNaN b then nanResult .div a b
  else if isInf a then (if isInf b then nanResult .div a b else infF neg)
  else if isInf b then zeroF neg
  else if isZero b then (if isZero a then nanResult .div a b else infF neg)
  else ofBits neg (roundMag (unitsOfBits (magBits a) * unitsPerOne) (unitsOfBits (magBits b)))

/-- `a < b`, false on a NaN; the zeros are equal (R131). -/
def flt (a b : F64) : Bool := !isNaN a && !isNaN b && decide (valueOf a < valueOf b)

/-- `a > b`, false on a NaN (R131). -/
def fgt (a b : F64) : Bool := !isNaN a && !isNaN b && decide (valueOf b < valueOf a)

/-! ### Conversions -/

/-- `U2F`: exact (R127). -/
def u2f (n : U16) : F64 := ofBits false (roundMag (n.toNat * unitsPerOne) 1)

/-- `F2U`: the four cases of R128 (the spec's D10, log 9). -/
def f2u (f : F64) : U16 :=
  if isNaN f then 0
  else if valueOf f < (unitsPerOne : Int) then 0
  else if 65535 * (unitsPerOne : Int) ≤ valueOf f then 65535
  else BitVec.ofNat 16 ((valueOf f).toNat / unitsPerOne)

/-- `F2P`: the four cases of R129 (the spec's D11, log 10). -/
def f2p (f : F64) : Coord :=
  if isNaN f then 0
  else if valueOf f ≤ -2147483648 * (unitsPerOne : Int) then BitVec.ofInt 32 (-2147483648)
  else if 2147483647 * (unitsPerOne : Int) ≤ valueOf f then BitVec.ofInt 32 2147483647
  else BitVec.ofInt 32 ((valueOf f).tdiv unitsPerOne)

/-! ### The tolerance -/

/-- `EPS`: any binary64 with `0 < EPS < 1` (R8, R191, log 6); the reference value 2^-52 stands in where
the free choice is not one. -/
def eps : F64 :=
  if flt 0 Config.epsFree && flt Config.epsFree oneF then Config.epsFree else 0x3CB0000000000000

end Sys2Proof.Machine
end

