-- ==== Sys2Proof/Machine/Direction.lean ====
section
/-! DEFINITION. The direction function of `FWD` and the reference table (`41_drawing.md` R153, R154). -/

namespace Sys2Proof.Machine

/-- `DIR`: `DIR(0) = (1.0, +0.0)`, every other entry is open (R153, log 8). -/
def dir (d : Nat) : F64 × F64 := if d = 0 then (oneF, zeroF false) else Config.dirFree d

/-! ### `DIR_REF` -/

/-- `K`: the binary64 nearest to pi/180 (R154). -/
def degToRad : F64 := 0x3F91DF46A2529D39

/-- `theta(d)` = `fmul(U2F(d), K)`, in radians (R154). -/
def theta (d : Nat) : F64 := fmul (u2f (BitVec.ofNat 16 d)) degToRad

/-- Fixed point for the series: 2^300 is one. Every `theta(d)` is an exact multiple of 2^-300. -/
def seriesOne : Nat := 2 ^ 300

/-- Sums `x^k / k!` with the signs of cosine (even `k`) and sine (odd `k`), from term `k` on, for `fuel`
terms; `t` is the size of term `k`. -/
def series (x : Nat) : (fuel k t : Nat) → (c s : Int) → Int × Int
  | 0, _, _, c, s => (c, s)
  | fuel + 1, k, t, c, s =>
    let t' := t * x / (seriesOne * (k + 1))
    let v : Int := if k % 4 < 2 then (t : Int) else -(t : Int)
    if k % 2 = 0 then series x fuel (k + 1) t' (c + v) s else series x fuel (k + 1) t' c (s + v)

/-- Round a fixed-point number to the nearest binary64. -/
def ofSeries (v : Int) : F64 := ofBits (decide (v < 0)) (roundMag (v.natAbs * unitsPerOne) seriesOne)

/-- `DIR_REF(d)` = `(RN(cos(theta(d))), RN(sin(theta(d))))` (R154): 120 terms of the series at 300 bits
after the point (log 20). -/
def dirRef (d : Nat) : F64 × F64 :=
  let x := unitsOfBits (magBits (theta d)) * seriesOne / unitsPerOne
  let cs := series x 120 0 seriesOne 0 0
  (ofSeries cs.1, ofSeries cs.2)

/-- The named property `DIR = DIR_REF` that a claim may assume (R153). -/
def DirIsRef : Prop := ∀ d, d < 360 → dir d = dirRef d

end Sys2Proof.Machine
end

