-- ==== Sys2Proof/Machine/Ops.lean ====
section
/-! DEFINITION. The named operations over registers, program counter, streams and faults that every
meaning is built from. -/

namespace Sys2Proof.Machine

/-! ### Registers -/

/-- Read of `xi[k]` (R11, R22). -/
def State.int (s : State) (k : Fin 8) : U16 := s.xi[k]

/-- Read of `xf[k]` (R11, R23). -/
def State.flt (s : State) (k : Fin 8) : F64 := s.xf[k]

/-- Write of `xi[k]` (R11). -/
def State.setInt (s : State) (k : Fin 8) (v : U16) : State := { s with xi := s.xi.set k v }

/-- Write of `xf[k]` (R11). -/
def State.setFlt (s : State) (k : Fin 8) (v : F64) : State := { s with xf := s.xf.set k v }

/-- `HREG`: the heading is the integer register `H` (R24; the spec's D4, log 11). -/
def hReg : Fin 8 := 7

/-- `XREG`: the x position is the float register `X` (R24; D3, log 11). -/
def xReg : Fin 8 := 5

/-- `YREG`: the y position is the float register `Y` (R24; D3, log 11). -/
def yReg : Fin 8 := 6

/-! ### Program counter and fetch -/

/-- `N`: the number of instructions in the store (R62). -/
def State.n (s : State) : Nat := s.prog.length

/-- `pc <- pc + 1`; it never wraps (R31, R122). -/
def State.advance (s : State) : State := { s with pc := s.pc + 1 }

/-- `pc <- a`, whatever `a` is (R122, R197). -/
def State.jump (s : State) (a : Addr) : State := { s with pc := a.toNat }

/-- The instruction at `pc`, none where `pc >= N` (R121). -/
def State.fetch (s : State) : Option Instr := s.prog[s.pc]?

/-! ### Faults -/

/-- `raise`: the status takes the cause and the `pc`, nothing else changes and nothing is emitted (R232).
There is no return from a fault, so no operation stands beside it (R235). -/
def State.raise (s : State) (c : Cause) : State := { s with status := .faulted c s.pc }

/-- `status <- Halted` (R210). -/
def State.halt (s : State) : State := { s with status := .halted }

/-! ### Events -/

/-- `emit Pixel(x, y, COLOR)` (R11, R50). -/
def State.emitPixel (s : State) (x y : Coord) : State :=
  { s with pixout := s.pixout ++ [⟨x, y, Config.color⟩] }

/-- `emit Diag(Wrap, pc)` where the result wrapped (R135). -/
def State.emitWrap (s : State) (wrapped : Bool) : State :=
  if wrapped then { s with diagout := s.diagout ++ [⟨.wrap, s.pc⟩] } else s

/-! ### The step preamble -/

/-- The preamble of a step (R121): the fetched instruction, or the step's whole answer: no step from a
terminal status, `PcOutOfRange` where `pc >= N` (R233). -/
def State.preamble (s : State) : Except Out Instr :=
  match s.status with
  | .halted => .error (.fault .runHalted)
  | .faulted c info => .error (.fault (.runFaulted c info))
  | .running =>
    match s.fetch with
    | none => .error (.next (s.raise .pcOutOfRange))
    | some i => .ok i

end Sys2Proof.Machine
end

