-- ==== Sys2Proof/Machine/Drawing.lean ====
section
/-! DEFINITION. `DRW` and `FWD` (`41_drawing.md`). -/

namespace Sys2Proof.Machine

/-- `DRW`: toggle the pen; no event (R150). -/
def execDrw (s : State) : Out := .next { s with pen := !s.pen }.advance

/-- `x[HREG] mod 360` (R152; the spec's D33). -/
def State.heading (s : State) : Nat := (s.int hReg).toNat % Config.degMod

/-- The position after one unit along the heading, both registers written (R151; D12). -/
def State.moved (s : State) : State :=
  let d := dir s.heading
  (s.setFlt xReg (fadd (s.flt xReg) d.1)).setFlt yReg (fadd (s.flt yReg) d.2)

/-- Plot the position just reached where the pen is down, truncated (R151, R155). -/
def State.plot (s : State) : State :=
  if s.pen then s.emitPixel (f2p (s.flt xReg)) (f2p (s.flt yReg)) else s

/-- `FWD` (R151). -/
def execFwd (s : State) : Out := .next s.moved.plot.advance

end Sys2Proof.Machine
end

