-- ==== Sys2Proof/Machine/Halt.lean ====
section
/-! DEFINITION. `HLT` (`44_halt.md`). -/

namespace Sys2Proof.Machine

/-- `HLT`: the status becomes `Halted`; `pc`, registers and pen are unchanged (R210; the spec's D15). -/
def execHlt (s : State) : Out := .next s.halt

end Sys2Proof.Machine
end

