-- ==== Sys2Proof/Machine/Operands.lean ====
section
/-! DEFINITION. Reading a Value operand: in the source register's own bank, then converted to the
destination's (`40_execution_loop.md` R125; the spec's D29). -/

namespace Sys2Proof.Machine

/-- `ValI` (R126). -/
def State.valI (s : State) : Value → U16
  | .imm n => n
  | .reg (.int k) => s.int k
  | .reg (.flt k) => f2u (s.flt k)

/-- `ValF` (R127). -/
def State.valF (s : State) : Value → F64
  | .imm n => u2f n
  | .reg (.int k) => u2f (s.int k)
  | .reg (.flt k) => s.flt k

end Sys2Proof.Machine
end

