-- ==== Sys2Proof/Machine/Flags.lean ====
section
/-! DEFINITION. The integer primitives with their wrap condition (`40_execution_loop.md` R130) and the
predicates of the jumps (`43_jumps.md` R191). The machine has no condition codes (R33). -/

namespace Sys2Proof.Machine

/-! ### Integer primitives: the 16-bit result, and whether the exact result left `0..65535` (D32) -/

def iadd (a b : U16) : U16 × Bool :=
  (BitVec.ofNat 16 (a.toNat + b.toNat), decide (65536 ≤ a.toNat + b.toNat))

def isub (a b : U16) : U16 × Bool :=
  (BitVec.ofInt 16 ((a.toNat : Int) - (b.toNat : Int)), decide (a.toNat < b.toNat))

def imul (a b : U16) : U16 × Bool :=
  (BitVec.ofNat 16 (a.toNat * b.toNat), decide (65536 ≤ a.toNat * b.toNat))

/-- Unsigned quotient; the callers have excluded `b = 0` (R167). It never wraps (D30). -/
def idiv (a b : U16) : U16 × Bool := (BitVec.ofNat 16 (a.toNat / b.toNat), false)

/-! ### Predicates (R191): the bank of the tested register selects the comparison (R190; D14) -/

/-- The rounded distance the tolerant comparisons test (R191). -/
def fdist (x y : F64) : F64 := fabs (fsub x y)

/-- A comparison of the register `rd` with a Value converted to its bank (R190). -/
def State.compare (s : State) (ci : U16 → U16 → Bool) (cf : F64 → F64 → Bool) (rd : RegId)
    (v : Value) : Bool :=
  match rd with
  | .int k => ci (s.int k) (s.valI v)
  | .flt k => cf (s.flt k) (s.valF v)

/-- `JNZ`: tolerant for a float register (R192; D13, log 19). -/
def State.predJnz (s : State) (rd : RegId) : Bool :=
  match rd with
  | .int k => s.int k != 0#16
  | .flt k => fgt (fabs (s.flt k)) eps

/-- `JEQ` (R193). -/
def State.predJeq (s : State) (rd : RegId) (v : Value) : Bool :=
  s.compare (fun x y => x == y) (fun x y => Machine.flt (fdist x y) eps) rd v

/-- `JNE` (R194). -/
def State.predJne (s : State) (rd : RegId) (v : Value) : Bool :=
  s.compare (fun x y => x != y) (fun x y => fgt (fdist x y) eps) rd v

/-- `JGT`: unsigned, or exact (R195). -/
def State.predJgt (s : State) (rd : RegId) (v : Value) : Bool :=
  s.compare (fun x y => decide (y.toNat < x.toNat)) fgt rd v

/-- `JLT`: unsigned, or exact (R196). -/
def State.predJlt (s : State) (rd : RegId) (v : Value) : Bool :=
  s.compare (fun x y => decide (x.toNat < y.toNat)) Machine.flt rd v

end Sys2Proof.Machine
end

