-- ==== Sys2Proof/Machine/Jumps.lean ====
section
/-! DEFINITION. `JNZ JEQ JNE JGT JLT` (`43_jumps.md`). -/

namespace Sys2Proof.Machine

/-- The common shape (R190): the target is not validated here (R197). -/
def condJump (p : Bool) (a : Addr) (s : State) : Out :=
  .next (if p then s.jump a else s.advance)

/-- `JNZ rd a` (R192). -/
def execJnz (rd : RegId) (a : Addr) (s : State) : Out := condJump (s.predJnz rd) a s

/-- `JEQ rd v a` (R193). -/
def execJeq (rd : RegId) (v : Value) (a : Addr) (s : State) : Out := condJump (s.predJeq rd v) a s

/-- `JNE rd v a` (R194). -/
def execJne (rd : RegId) (v : Value) (a : Addr) (s : State) : Out := condJump (s.predJne rd v) a s

/-- `JGT rd v a` (R195). -/
def execJgt (rd : RegId) (v : Value) (a : Addr) (s : State) : Out := condJump (s.predJgt rd v) a s

/-- `JLT rd v a` (R196). -/
def execJlt (rd : RegId) (v : Value) (a : Addr) (s : State) : Out := condJump (s.predJlt rd v) a s

end Sys2Proof.Machine
end

