-- ==== Sys2Proof/Machine/StoreArith.lean ====
section
/-! DEFINITION. `STO INC DEC ADD SUB MUL DIV` (`42_store_arith.md`). -/

namespace Sys2Proof.Machine

/-- The integer half of the common shape (R160): write the result, emit the diagnostic where it
wrapped, advance. -/
def State.putInt (s : State) (k : Fin 8) (r : U16 × Bool) : State :=
  ((s.setInt k r.1).emitWrap r.2).advance

/-- The float half of the common shape (R160). -/
def State.putFlt (s : State) (k : Fin 8) (r : F64) : State := (s.setFlt k r).advance

/-- The common shape (R160): operand `bi` for an integer destination, `bf` for a float one; operands
are read before the register is written (R139). -/
def arith (opi : U16 → U16 → U16 × Bool) (opf : F64 → F64 → F64) (rd : RegId) (bi : U16) (bf : F64)
    (s : State) : Out :=
  match rd with
  | .int k => .next (s.putInt k (opi (s.int k) bi))
  | .flt k => .next (s.putFlt k (opf (s.flt k) bf))

/-- `STO rd v`: the old value of `rd` is not read (R161). -/
def execSto (rd : RegId) (v : Value) (s : State) : Out :=
  arith (fun _ b => (b, false)) (fun _ b => b) rd (s.valI v) (s.valF v) s

/-- `INC rd` (R162). -/
def execInc (rd : RegId) (s : State) : Out := arith iadd fadd rd 1 oneF s

/-- `DEC rd` (R163). -/
def execDec (rd : RegId) (s : State) : Out := arith isub fsub rd 1 oneF s

/-- `ADD rd v` (R164). -/
def execAdd (rd : RegId) (v : Value) (s : State) : Out := arith iadd fadd rd (s.valI v) (s.valF v) s

/-- `SUB rd v` (R165). -/
def execSub (rd : RegId) (v : Value) (s : State) : Out := arith isub fsub rd (s.valI v) (s.valF v) s

/-- `MUL rd v` (R166). -/
def execMul (rd : RegId) (v : Value) (s : State) : Out := arith imul fmul rd (s.valI v) (s.valF v) s

/-- `DIV rd v` faults: an integer destination and a converted operand of zero (R167, R231). -/
def State.divByZero (s : State) (rd : RegId) (v : Value) : Bool :=
  match rd with
  | .int _ => s.valI v == 0#16
  | .flt _ => false

/-- `DIV rd v` (R167). -/
def execDiv (rd : RegId) (v : Value) (s : State) : Out :=
  if s.divByZero rd v then .next (s.raise .divideByZero)
  else arith idiv fdiv rd (s.valI v) (s.valF v) s

end Sys2Proof.Machine
end

