-- ==== Sys2Proof/Machine/Dispatch.lean ====
section
/-! DEFINITION. One arm per instruction (`30_encoding.md` R92). -/

namespace Sys2Proof.Machine

def exec (i : Instr) (s : State) : Host.Outcome State Fault Refusal :=
  match i with
  | .drw => Sys2Proof.Machine.execDrw s
  | .fwd => Sys2Proof.Machine.execFwd s
  | .sto rd v => Sys2Proof.Machine.execSto rd v s
  | .inc rd => Sys2Proof.Machine.execInc rd s
  | .dec rd => Sys2Proof.Machine.execDec rd s
  | .add rd v => Sys2Proof.Machine.execAdd rd v s
  | .sub rd v => Sys2Proof.Machine.execSub rd v s
  | .mul rd v => Sys2Proof.Machine.execMul rd v s
  | .div rd v => Sys2Proof.Machine.execDiv rd v s
  | .jnz rd a => Sys2Proof.Machine.execJnz rd a s
  | .jeq rd v a => Sys2Proof.Machine.execJeq rd v a s
  | .jne rd v a => Sys2Proof.Machine.execJne rd v a s
  | .jgt rd v a => Sys2Proof.Machine.execJgt rd v a s
  | .jlt rd v a => Sys2Proof.Machine.execJlt rd v a s
  | .hlt => Sys2Proof.Machine.execHlt s

end Sys2Proof.Machine
end

