-- ==== Sys2Proof/WellFormed.lean ====
section
/-! DEFINITION. What must hold of raw parts before they have a meaning. A decoded `Instr` is
well-formed by its type: ids, immediates and addresses cannot leave their ranges, and every id is
accepted in every register position (`30_encoding.md` R92, R100). The checks concern the raw bytes
and the whole program. -/

namespace Sys2Proof

/-- A register-id byte is in `0x00..0x0F` (R85, R97). -/
def regByteWf (b : Byte) : Bool := decide (b.toNat ≤ 0x0F)

/-- The header's version byte is the supported one (R81, R99). -/
def versionWf (b : Byte) : Bool := b == Config.version

/-- The program fits the instruction store the spec gives a meaning to (R63). -/
def progWf (p : List Instr) : Bool := decide (p.length ≤ Config.maxProg)

/-- A whole program is well-formed: supported version, and not refused for its length (R63, R93). -/
def Image.wf (img : Image) : Bool := versionWf img.version && progWf img.prog

end Sys2Proof
end

