-- ==== Sys2Proof/Decode.lean ====
section
/-! DEFINITION. The binary program format: opcode and register numbers, the decoder, total on any
bytes and rejecting by name, and after it the encoder (`30_encoding.md`; errors of `60_exceptions.md`). -/

namespace Sys2Proof

/-! ### Numbers -/

/-- `OPC`: the opcode numbers, in table order (R90; the spec's D1, log 11). -/
def Mnemonic.opc : Mnemonic → BitVec 7
  | .drw => 0x00
  | .fwd => 0x01
  | .sto => 0x02
  | .inc => 0x03
  | .dec => 0x04
  | .add => 0x05
  | .sub => 0x06
  | .mul => 0x07
  | .div => 0x08
  | .jnz => 0x09
  | .jeq => 0x0A
  | .jne => 0x0B
  | .jgt => 0x0C
  | .jlt => 0x0D
  | .hlt => 0x0E

/-- The format column of R84 and R90. -/
def Mnemonic.format : Mnemonic → Format
  | .drw => .N
  | .fwd => .N
  | .sto => .RV
  | .inc => .R
  | .dec => .R
  | .add => .RV
  | .sub => .RV
  | .mul => .RV
  | .div => .RV
  | .jnz => .RA
  | .jeq => .RVA
  | .jne => .RVA
  | .jgt => .RVA
  | .jlt => .RVA
  | .hlt => .N

/-- Every mnemonic, in the order of R90. -/
def allMnemonics : List Mnemonic :=
  [.drw, .fwd, .sto, .inc, .dec, .add, .sub, .mul, .div, .jnz, .jeq, .jne, .jgt, .jlt, .hlt]

/-- Opcode lookup: `none` is an illegal opcode (R90, R95). -/
def mnemonicOf (o : BitVec 7) : Option Mnemonic := allMnemonics.find? (fun m => m.opc == o)

/-- `REGID` read backwards: a register-id byte, `none` above `0x0F` (R21, R85, R97; D2, D9). -/
def regOfByte (b : Byte) : Option RegId :=
  if regByteWf b then
    some (if b.toNat < 8 then .int (Fin.ofNat 8 b.toNat) else .flt (Fin.ofNat 8 (b.toNat - 8)))
  else none

/-- `REGID`: `A`..`H` are 0x0..0x7, `S`..`Z` are 0x8..0xF (R21; the spec's D2, log 11). -/
def byteOfReg : RegId → Byte
  | .int k => BitVec.ofNat 8 k.val
  | .flt k => BitVec.ofNat 8 (k.val + 8)

/-! ### Fields -/

/-- Bits 6..0 of the opcode byte (R83). -/
def opcField (b0 : Byte) : BitVec 7 := b0.extractLsb' 0 7

/-- Bit 7 of the opcode byte: the Value is a register reference (R83). -/
def vregField (b0 : Byte) : Bool := b0.msb

/-- The byte at an offset; the callers have checked that it is there. -/
def byteAt (bs : List Byte) (k : Nat) : Byte := bs.getD k 0

/-- `LE16`: the 16-bit little-endian value at an offset (R10, R64). -/
def le16 (bs : List Byte) (k : Nat) : U16 := byteAt bs (k + 1) ++ byteAt bs k

/-- Bytes of the Value operand: absent, one, or two (R82, R89). -/
def valueLen (f : Format) (vreg : Bool) : Nat :=
  match f with
  | .N => 0
  | .R => 0
  | .RA => 0
  | .RV => if vreg then 1 else 2
  | .RVA => if vreg then 1 else 2

/-- `Len`: the length of an instruction, from its opcode byte alone (R89, R104). -/
def instrLen (f : Format) (vreg : Bool) : Nat :=
  match f with
  | .N => 1
  | .R => 2
  | .RV => 2 + valueLen .RV vreg
  | .RA => 4
  | .RVA => 2 + valueLen .RVA vreg + 2

/-! ### Decode errors -/

/-- The decode errors with their recorded values (R221). Each is fatal and leaves no machine (R227). -/
inductive DecodeError
  /-- byte 0 is not `VERSION`; records the byte (R222) -/
  | badVersion (b : Byte)
  /-- an undefined opcode at offset `c`; records the offset and the byte (R223) -/
  | badOpcode (c : Nat) (b : Byte)
  /-- the header is cut short (records the length) or the instruction at `c` is (records `c`) (R224) -/
  | truncated (c : Nat)
  /-- a register-id byte above `0x0F`; records its offset and the byte (R225) -/
  | badRegister (c : Nat) (b : Byte)
deriving DecidableEq, Repr

/-- The code column of R221 (the spec's D17). -/
def DecodeError.code : DecodeError → Nat
  | .badVersion _ => 1
  | .badOpcode _ _ => 2
  | .truncated _ => 3
  | .badRegister _ _ => 4

/-- Why a byte string gives no run: a decode error, or a program the spec refuses (R63, R93). -/
inductive LoadFailure
  | decode (e : DecodeError)
  /-- more than `MAXPROG` instructions: refused, the spec gives it no meaning (R63, U9) -/
  | programTooLong (n : Nat)
deriving DecidableEq, Repr

/-! ### The decoder -/

/-- The register-id byte `b` at offset `c` (R94, R97). -/
def decodeReg (c : Nat) (b : Byte) : Except DecodeError RegId :=
  match regOfByte b with
  | some r => .ok r
  | none => .error (.badRegister c b)

/-- `UnpackValue` for the instruction at offset `c` (R86, R94). -/
def decodeValue (c : Nat) (bs : List Byte) (vreg : Bool) : Except DecodeError Value :=
  match vreg with
  | true => (decodeReg (c + 2) (byteAt bs 2)).map .reg
  | false => .ok (.imm (le16 bs 2))

/-- Format `R`: `rd` (R84). -/
def decodeR (c : Nat) (bs : List Byte) (mk : RegId → Instr) : Except DecodeError Instr :=
  (decodeReg (c + 1) (byteAt bs 1)).map mk

/-- Format `RV`: `rd`, then the Value (R84). -/
def decodeRV (c : Nat) (bs : List Byte) (mk : RegId → Value → Instr) : Except DecodeError Instr :=
  match decodeReg (c + 1) (byteAt bs 1) with
  | .error e => .error e
  | .ok rd => (decodeValue c bs (vregField (byteAt bs 0))).map (mk rd)

/-- Format `RA`: `rd`, then the address (R84). -/
def decodeRA (c : Nat) (bs : List Byte) (mk : RegId → Addr → Instr) : Except DecodeError Instr :=
  (decodeReg (c + 1) (byteAt bs 1)).map (fun rd => mk rd (le16 bs 2))

/-- Format `RVA`: `rd`, the Value, then the address (R84). -/
def decodeRVA (c : Nat) (bs : List Byte) (mk : RegId → Value → Addr → Instr) :
    Except DecodeError Instr :=
  let vreg := vregField (byteAt bs 0)
  decodeRV c bs (fun rd v => mk rd v (le16 bs (2 + valueLen .RVA vreg)))

/-- The operands of a mnemonic whose bytes are all present (R94). -/
def decodeOperands (m : Mnemonic) (c : Nat) (bs : List Byte) : Except DecodeError Instr :=
  match m with
  | .drw => .ok .drw
  | .fwd => .ok .fwd
  | .sto => decodeRV c bs .sto
  | .inc => decodeR c bs .inc
  | .dec => decodeR c bs .dec
  | .add => decodeRV c bs .add
  | .sub => decodeRV c bs .sub
  | .mul => decodeRV c bs .mul
  | .div => decodeRV c bs .div
  | .jnz => decodeRA c bs .jnz
  | .jeq => decodeRVA c bs .jeq
  | .jne => decodeRVA c bs .jne
  | .jgt => decodeRVA c bs .jgt
  | .jlt => decodeRVA c bs .jlt
  | .hlt => .ok .hlt

/-- `DecodeOne` (R94): `bs` is the program from offset `c` on, not empty; the answer is the length and
the instruction. The checks come in the order opcode, presence, `rd`, `rs` (R226; D18). Bit 7 is
masked before the lookup for every opcode (R96; D8). -/
def decodeOne (c : Nat) (bs : List Byte) : Except DecodeError (Nat × Instr) :=
  let b0 := byteAt bs 0
  match mnemonicOf (opcField b0) with
  | none => .error (.badOpcode c b0)
  | some m =>
    let n := instrLen m.format (vregField b0)
    if bs.length < n then .error (.truncated c)
    else (decodeOperands m c bs).map (fun i => (n, i))

/-- The loop of `DecodeProgram` (R93). The cursor is at offset `c`; the next `skip` bytes belong to the
instruction decoded last. An error at a lower offset wins (R226). -/
def decodeFrom (c skip : Nat) : List Byte → Except DecodeError (List Instr)
  | [] => .ok []
  | b :: bs =>
    match skip with
    | k + 1 => decodeFrom (c + 1) k bs
    | 0 =>
      match decodeOne c (b :: bs) with
      | .error e => .error e
      | .ok (n, i) => (decodeFrom (c + 1) (n - 1) bs).map (fun is => i :: is)

/-- `DecodeProgram` (R93): header length, version, then every instruction; the whole byte string or
nothing. -/
def decodeProgram (buf : List Byte) : Except LoadFailure Image :=
  if buf.length < Config.hdrLen then .error (.decode (.truncated buf.length))
  else if versionWf (byteAt buf 0) then
    match decodeFrom Config.hdrLen 0 (buf.drop Config.hdrLen) with
    | .error e => .error (.decode e)
    | .ok is =>
      if progWf is then .ok ⟨byteAt buf 0, le16 buf 1, le16 buf 3, is⟩
      else .error (.programTooLong is.length)
  else .error (.decode (.badVersion (byteAt buf 0)))

/-! ### The encoder -/

/-- The two bytes of a 16-bit field, low byte first (R64). -/
def le16Bytes (n : U16) : List Byte := [n.extractLsb' 0 8, n.extractLsb' 8 8]

/-- The opcode byte: bit 7 is set exactly for a Value in register form (R83, R101). -/
def opcodeByte (m : Mnemonic) (vreg : Bool) : Byte := BitVec.ofBool vreg ++ m.opc

/-- Whether the Value operand is a register reference (R86). -/
def Value.isReg : Value → Bool
  | .imm _ => false
  | .reg _ => true

/-- The bytes of a Value operand (R86, R101). -/
def encodeValue : Value → List Byte
  | .imm n => le16Bytes n
  | .reg r => [byteOfReg r]

/-- Format `RV` (R101). -/
def encodeRV (m : Mnemonic) (rd : RegId) (v : Value) : List Byte :=
  opcodeByte m v.isReg :: byteOfReg rd :: encodeValue v

/-- `Encode`: the canonical encoding of an instruction (R101). -/
def encode : Instr → List Byte
  | .drw => [opcodeByte .drw false]
  | .fwd => [opcodeByte .fwd false]
  | .sto rd v => encodeRV .sto rd v
  | .inc rd => [opcodeByte .inc false, byteOfReg rd]
  | .dec rd => [opcodeByte .dec false, byteOfReg rd]
  | .add rd v => encodeRV .add rd v
  | .sub rd v => encodeRV .sub rd v
  | .mul rd v => encodeRV .mul rd v
  | .div rd v => encodeRV .div rd v
  | .jnz rd a => opcodeByte .jnz false :: byteOfReg rd :: le16Bytes a
  | .jeq rd v a => encodeRV .jeq rd v ++ le16Bytes a
  | .jne rd v a => encodeRV .jne rd v ++ le16Bytes a
  | .jgt rd v a => encodeRV .jgt rd v ++ le16Bytes a
  | .jlt rd v a => encodeRV .jlt rd v ++ le16Bytes a
  | .hlt => [opcodeByte .hlt false]

/-- Instructions laid end to end with no padding (R80). -/
def encodeInstrs : List Instr → List Byte
  | [] => []
  | i :: is => encode i ++ encodeInstrs is

/-- A whole binary program: the 5-byte header, then the instructions (R80, R81). -/
def encodeProgram (img : Image) : List Byte :=
  img.version :: (le16Bytes img.width ++ le16Bytes img.height) ++ encodeInstrs img.prog

/-! ### One instruction given as a number -/

/-- The first `nbits / 8` bytes of `w`, bit 0 the least significant bit of the first byte, then zero
bytes up to the longest instruction (6 bytes, R82). -/
def wordBytes (nbits w : Nat) : List Byte :=
  (List.range 6).map (fun k => BitVec.ofNat 8 ((w % 2 ^ nbits) >>> (8 * k)))

/-- The instruction the decoder reads from a word of `opcode_table.json`, none where it refuses. -/
def decodeTableWord (nbits w : Nat) : Option Instr :=
  match decodeOne 0 (wordBytes nbits w) with
  | .ok (_, i) => some i
  | .error _ => none

end Sys2Proof
end

