-- ==== Sys2Proof/Machine/Load.lean ====
section
/-! DEFINITION. The `load` port (`10_state.md` R54, `70_reset_and_hazards.md` R261 to R264), and one
instruction placed where the next step fetches. -/

namespace Sys2Proof.Machine

/-- The state a run starts in: reset, with the store and the header of the decoded program (R41, R261). -/
def State.ofImage (img : Image) : State :=
  { State.reset with
    hdrVersion := img.version
    hdrWidth := img.width
    hdrHeight := img.height
    prog := img.prog }

/-- `load`: decode the whole byte string, then reset; on a failure no run exists (R227, R261). A second
run is a second load, nothing carries over (R264). -/
def load (buf : List Byte) : Except LoadFailure State := (decodeProgram buf).map State.ofImage

/-- The store with `i` at index `k`: replaced, or appended after halts that fill the gap. -/
def placeAt (p : List Instr) (k : Nat) (i : Instr) : List Instr :=
  if k < p.length then p.set k i else p ++ List.replicate (k - p.length) .hlt ++ [i]

/-- `s` with `i` as the instruction its next step fetches (log 24). -/
def State.withInstr (s : State) (i : Instr) : State :=
  { s with status := .running, prog := placeAt s.prog s.pc i }

end Sys2Proof.Machine
end

