-- ==== Sys2Proof/Machine/Step.lean ====
section
/-! DEFINITION. One step of the engine (`40_execution_loop.md` R121). -/

namespace Sys2Proof.Machine

/-- The preamble, then the fetched instruction's meaning (R121). -/
def step (s : State) : Host.Outcome State Fault Refusal :=
  match s.preamble with
  | .error o => o
  | .ok i => exec i s

/-- The state whose next step runs the instruction of a table word: it stands in the store at `pc` and
the run is `Running` (log 2, 24). A word the decoder refuses is never in a store, and changes nothing. -/
def State.withFetchWord (s : State) (nbits w : Nat) : State :=
  match decodeTableWord nbits w with
  | some i => s.withInstr i
  | none => s

end Sys2Proof.Machine
end

