-- ==== Sys2Proof/Machine/DirectionBound.lean ====
section
/-! DEFINITION. The accuracy bound on the direction table, the second named property a claim may assume
(`41_drawing.md` R153). The machine does not use it. -/

namespace Sys2Proof.Machine

/-- A finite datum within 2^-50 of a real number. -/
def Near (f : F64) (x : ℝ) : Prop :=
  isFinite f = true ∧ |(valueOf f : ℝ) / (unitsPerOne : ℝ) - x| ≤ 1 / 2 ^ 50

/-- The bound at one heading: `|dx - cos d| <= 2^-50` and `|dy - sin d| <= 2^-50`, in degrees (R153). -/
def DirAccurateAt (d : Nat) : Prop :=
  Near (dir d).1 (Real.cos ((d : ℝ) * Real.pi / 180)) ∧
  Near (dir d).2 (Real.sin ((d : ℝ) * Real.pi / 180))

/-- The bound at every heading (R153). -/
def DirIsAccurate : Prop := ∀ d, d < 360 → DirAccurateAt d

end Sys2Proof.Machine
end

