-- ==== Sys2Proof/Machine/Ports.lean ====
section
/-! DEFINITION. What the host sees at the ports (`10_state.md` R37, R51, R55): views computed from the
state. -/

namespace Sys2Proof.Machine

/-- The cause codes (R230; the spec's D17). -/
def Cause.code : Cause → BitVec 4
  | .divideByZero => 8
  | .pcOutOfRange => 9

/-- `S0`: 0 `Running`, 1 `Halted`, 2 `Faulted` (R37). -/
def State.statusBits (s : State) : BitVec 2 :=
  match s.status with
  | .running => 0
  | .halted => 1
  | .faulted _ _ => 2

/-- `S1` `fcause`: meaningful only when faulted, else its reset value 0 (R37, R41, log 23). -/
def State.fcause (s : State) : BitVec 4 :=
  match s.status with
  | .running => 0
  | .halted => 0
  | .faulted c _ => c.code

/-- `S2` `finfo`: meaningful only when faulted, else its reset value 0 (R37, R41, log 23). -/
def State.finfo (s : State) : BitVec 17 :=
  match s.status with
  | .running => 0
  | .halted => 0
  | .faulted _ info => BitVec.ofNat 17 info

/-- The source's terminated flag: `status != Running` (R34). -/
def State.terminated (s : State) : Bool := s.status != .running

/-- The end-of-stream signal on `pixout`: after the run has left `Running`, alike for a halt and a
fault (R51). -/
def State.endOfStream (s : State) : Bool := s.terminated

end Sys2Proof.Machine
end

