-- ==== Sys2Proof/Safety.lean ====
section
/-! DEFINITION. The terms claims are stated in: the machine's invariant, what an instruction reads and
writes, correct rounding, and states alike but for NaN bits. -/

namespace Sys2Proof.Machine

/-! ### Bytes read as instructions (R93) -/

/-- The bytes, from offset `c` on, are exactly the encodings of `is`, canonical or not, end to end. -/
inductive DecodesAs : Nat → List Byte → List Instr → Prop
  | nil (c : Nat) : DecodesAs c [] []
  | cons {c : Nat} {i : Instr} {chunk rest : List Byte} {is : List Instr}
      (first : decodeOne c chunk = .ok (chunk.length, i))
      (others : DecodesAs (c + chunk.length) rest is) : DecodesAs c (chunk ++ rest) (i :: is)

/-! ### The invariant -/

/-- What every state of a run satisfies. -/
structure State.Inv (s : State) : Prop where
  /-- the store holds at most `MAXPROG` instructions (R63) -/
  progFits : s.n ≤ Config.maxProg
  /-- `pc` is in `0..65536` (R28, R30) -/
  pcRange : s.pc ≤ Config.maxProg
  /-- `hdr_version` is `VERSION` (R36) -/
  version : s.hdrVersion = Config.version
  /-- a halted machine stands on its `HLT` (R210) -/
  haltedAtHlt : s.status = .halted → s.fetch = some .hlt
  /-- `finfo` is the `pc` at the fault, and `pc` has not moved (R35, R232) -/
  faultInfo : ∀ c info, s.status = .faulted c info → info = s.pc
  /-- `DivideByZero` stands on a `DIV` to an integer register whose operand is zero (R230) -/
  divFault : ∀ info, s.status = .faulted .divideByZero info →
    ∃ k v, s.fetch = some (.div (.int k) v) ∧ s.valI v = 0#16
  /-- `PcOutOfRange` stands outside the program (R233) -/
  pcFault : ∀ info, s.status = .faulted .pcOutOfRange info → s.n ≤ s.pc
  /-- a diagnostic names an instruction of the program (R53) -/
  diagIndex : ∀ d ∈ s.diagout, d.index < s.n
  /-- every pixel event carries `COLOR` (R50) -/
  pixelColour : ∀ p ∈ s.pixout, p.colour = Config.color

/-! ### Registers read and written (R25) -/

/-- The register a Value names. -/
def valueRegs : Value → List RegId
  | .imm _ => []
  | .reg r => [r]

/-- The "reads" column of R25. -/
def regsRead : Instr → List RegId
  | .drw => []
  | .hlt => []
  | .fwd => [.int hReg, .flt xReg, .flt yReg]
  | .sto _ v => valueRegs v
  | .inc rd => [rd]
  | .dec rd => [rd]
  | .add rd v => rd :: valueRegs v
  | .sub rd v => rd :: valueRegs v
  | .mul rd v => rd :: valueRegs v
  | .div rd v => rd :: valueRegs v
  | .jnz rd _ => [rd]
  | .jeq rd v _ => rd :: valueRegs v
  | .jne rd v _ => rd :: valueRegs v
  | .jgt rd v _ => rd :: valueRegs v
  | .jlt rd v _ => rd :: valueRegs v

/-- The "writes" column of R25 (`DIV` does not write when it faults). -/
def regsWritten : Instr → List RegId
  | .drw => []
  | .hlt => []
  | .fwd => [.flt xReg, .flt yReg]
  | .sto rd _ => [rd]
  | .inc rd => [rd]
  | .dec rd => [rd]
  | .add rd _ => [rd]
  | .sub rd _ => [rd]
  | .mul rd _ => [rd]
  | .div rd _ => [rd]
  | .jnz _ _ => []
  | .jeq _ _ _ => []
  | .jne _ _ _ => []
  | .jgt _ _ _ => []
  | .jlt _ _ _ => []

/-- The first register operand, whose bank selects what the instruction does (R124). -/
def firstReg? : Instr → Option RegId
  | .drw => none
  | .hlt => none
  | .fwd => none
  | .sto rd _ => some rd
  | .inc rd => some rd
  | .dec rd => some rd
  | .add rd _ => some rd
  | .sub rd _ => some rd
  | .mul rd _ => some rd
  | .div rd _ => some rd
  | .jnz rd _ => some rd
  | .jeq rd _ _ => some rd
  | .jne rd _ _ => some rd
  | .jgt rd _ _ => some rd
  | .jlt rd _ _ => some rd

/-- The same instruction with another Value operand. -/
def withValue : Instr → Value → Instr
  | .drw, _ => .drw
  | .fwd, _ => .fwd
  | .sto rd _, v => .sto rd v
  | .inc rd, _ => .inc rd
  | .dec rd, _ => .dec rd
  | .add rd _, v => .add rd v
  | .sub rd _, v => .sub rd v
  | .mul rd _, v => .mul rd v
  | .div rd _, v => .div rd v
  | .jnz rd a, _ => .jnz rd a
  | .jeq rd _ a, v => .jeq rd v a
  | .jne rd _ a, v => .jne rd v a
  | .jgt rd _ a, v => .jgt rd v a
  | .jlt rd _ a, v => .jlt rd v a
  | .hlt, _ => .hlt

/-! ### Where the `pc` goes (R29, R122) -/

/-- The instruction is a jump that is taken. -/
def State.taken (s : State) : Instr → Bool
  | .drw => false
  | .fwd => false
  | .sto _ _ => false
  | .inc _ => false
  | .dec _ => false
  | .add _ _ => false
  | .sub _ _ => false
  | .mul _ _ => false
  | .div _ _ => false
  | .jnz rd _ => s.predJnz rd
  | .jeq rd v _ => s.predJeq rd v
  | .jne rd v _ => s.predJne rd v
  | .jgt rd v _ => s.predJgt rd v
  | .jlt rd v _ => s.predJlt rd v
  | .hlt => false

/-- The instruction ends the run in place: a `HLT`, or a `DIV` that faults. -/
def State.ends (s : State) : Instr → Bool
  | .drw => false
  | .fwd => false
  | .sto _ _ => false
  | .inc _ => false
  | .dec _ => false
  | .add _ _ => false
  | .sub _ _ => false
  | .mul _ _ => false
  | .div rd v => s.divByZero rd v
  | .jnz _ _ => false
  | .jeq _ _ _ => false
  | .jne _ _ _ => false
  | .jgt _ _ _ => false
  | .jlt _ _ _ => false
  | .hlt => true

/-! ### Frames -/

/-- Every register outside `rs` holds in `t` what it holds in `s`. -/
def SameRegsBut (rs : List RegId) (s t : State) : Prop :=
  (∀ k, RegId.int k ∉ rs → t.int k = s.int k) ∧ (∀ k, RegId.flt k ∉ rs → t.flt k = s.flt k)

/-- The store and the header registers are the same (R36, R38). -/
def SameProgram (s t : State) : Prop :=
  t.prog = s.prog ∧ t.hdrVersion = s.hdrVersion ∧ t.hdrWidth = s.hdrWidth ∧ t.hdrHeight = s.hdrHeight

/-- Everything but the registers, the `pc` and the diagnostics is the same: the frame of an arithmetic
instruction. -/
def SameBesidesRegs (s t : State) : Prop :=
  SameProgram s t ∧ t.pen = s.pen ∧ t.status = s.status ∧ t.pixout = s.pixout

/-- `t` is `s` after an arithmetic instruction at `pc` put the exact result `r`, reduced modulo 2^16,
into `xi[k]`, with the diagnostic exactly when `r` is outside `0..65535` (R130, R135, R160). -/
def PutsInt (s t : State) (k : Fin 8) (r : Int) : Prop :=
  ((t.int k).toNat : Int) = r % 65536 ∧
  t.diagout = s.diagout ++ (if 0 ≤ r ∧ r < 65536 then [] else [⟨.wrap, s.pc⟩]) ∧
  t.pc = s.pc + 1 ∧ SameRegsBut [.int k] s t ∧ SameBesidesRegs s t

/-- `t` is `s` after an arithmetic instruction put `f` into `xf[k]`: no event (R134, R160, R169). -/
def PutsFlt (s t : State) (k : Fin 8) (f : F64) : Prop :=
  t.flt k = f ∧ t.diagout = s.diagout ∧
  t.pc = s.pc + 1 ∧ SameRegsBut [.flt k] s t ∧ SameBesidesRegs s t

/-! ### Correct rounding (R131) -/

/-- The exponent of half a last place of the largest finite number, in units. -/
def overflowExp : Nat := 2044

/-- Half a last place above the largest finite number, in units: results from here on overflow. -/
def overflowUnits : Nat := (2 ^ 54 - 1) * 2 ^ overflowExp

/-- `r` is the binary64 nearest to `num / den` units of 2^-1074, ties to the even significand, and an
infinity exactly from half a last place above the largest finite number on. -/
structure CorrectlyRounded (num : Int) (den : Nat) (r : F64) : Prop where
  notNaN : isNaN r = false
  overflow : isInf r = true ↔ overflowUnits * den ≤ num.natAbs
  nearest : isFinite r = true → ∀ c, isFinite c = true →
    (valueOf r * den - num).natAbs ≤ (valueOf c * den - num).natAbs
  tiesToEven : isFinite r = true → ∀ c, isFinite c = true → valueOf c ≠ valueOf r →
    (valueOf r * den - num).natAbs = (valueOf c * den - num).natAbs → magBits r % 2 = 0
  negative : num < 0 → isNeg r = true
  positive : 0 < num → isNeg r = false

/-! ### NaN bits (R132) -/

/-- The same datum, or two NaNs. -/
def SameDatum (a b : F64) : Prop := a = b ∨ (isNaN a = true ∧ isNaN b = true)

/-- Two states alike but for the bits of NaNs in float registers. -/
structure SameUpToNaN (s t : State) : Prop where
  ints : ∀ k, s.int k = t.int k
  flts : ∀ k, SameDatum (s.flt k) (t.flt k)
  pc : s.pc = t.pc
  pen : s.pen = t.pen
  status : s.status = t.status
  version : s.hdrVersion = t.hdrVersion
  width : s.hdrWidth = t.hdrWidth
  height : s.hdrHeight = t.hdrHeight
  prog : s.prog = t.prog
  pixout : s.pixout = t.pixout
  diagout : s.diagout = t.diagout

end Sys2Proof.Machine
end

