-- ==== Sys2Proof/Certificates/Slice0/Obligations.lean ====
section
/-! DEFINITION. The statements for the provers. Each docstring names the rules of `spec/` it formalises and,
where a clause is the spec's own decision or the model's choice, the decision or the log entry. -/

open Sys2Proof Sys2Proof.Machine

/-! ### Reset and load -/

/-- The reset values that R41 gives without a program (R41, R260). The sign of the float zero is the spec's D28
(log 22). `fcause` and `finfo` are not meaningful here: that their port views read the 0 of R41's table is log
23. The header registers and the store come from the program and are not stated (log 1). -/
def Obligations.ResetValuesOfRegistersStatusAndStreams : Prop :=
  (∀ k, State.reset.int k = 0#16) ∧ (∀ k, State.reset.flt k = zeroF false) ∧
  State.reset.pc = 0 ∧ State.reset.pen = false ∧ State.reset.status = .running ∧
  State.reset.fcause = 0 ∧ State.reset.finfo = 0 ∧
  State.reset.pixout = [] ∧ State.reset.diagout = []

/-- A successful load leaves every register, the `pc`, the pen, the status and the streams as reset leaves
them, the three header registers as the five header bytes say, and the store as the bytes from offset 5 on
decode, with at most 65536 instructions (R36, R41, R81, R93, R261). That the version is 1 is the spec's D5 (log
11), that the float zeros are +0.0 its D28 (log 22), and the bound on the program its D19 (log 14). -/
def Obligations.LoadFillsStoreAndResetsTheRest : Prop :=
  ∀ buf s, load buf = .ok s →
    5 ≤ buf.length ∧
    s.hdrVersion = byteAt buf 0 ∧ s.hdrVersion = 1 ∧
    s.hdrWidth.toNat = (byteAt buf 1).toNat + 256 * (byteAt buf 2).toNat ∧
    s.hdrHeight.toNat = (byteAt buf 3).toNat + 256 * (byteAt buf 4).toNat ∧
    decodeFrom 5 0 (buf.drop 5) = .ok s.prog ∧ s.n ≤ 65536 ∧
    (∀ k, s.int k = 0#16) ∧ (∀ k, s.flt k = zeroF false) ∧ s.pc = 0 ∧ s.pen = false ∧
    s.status = .running ∧ s.pixout = [] ∧ s.diagout = []

/-- Loading the encoding of a well-formed program gives the reset state with exactly that header and program: no
bit of the header or of any instruction is dropped, and index `k` is the `k`-th instruction (R62, R80, R81, R93,
R101, R102). Well-formed is version 1 (the spec's D5, log 11) and at most 65536 instructions (D19, log 14). -/
def Obligations.LoadOfEncodedProgramIsThatProgram : Prop :=
  ∀ img : Image, img.wf = true →
    load (encodeProgram img) = .ok { State.reset with
      hdrVersion := img.version, hdrWidth := img.width, hdrHeight := img.height, prog := img.prog }

/-- A program of more than `MAXPROG` instructions is refused at load, whatever bytes encode it, canonical or
not (R63, R93; the spec's D19, log 14, and D5 for the version, log 11). -/
def Obligations.LoadRefusesTooLongProgram : Prop :=
  ∀ (hdr code : List Byte) (is : List Instr), hdr.length = 5 → byteAt hdr 0 = 1 → DecodesAs 5 code is →
    65536 < is.length → load (hdr ++ code) = .error (.programTooLong is.length)

/-- The header checks, length before version (R93, R98, R99, R222, R224, R226; the order is D18). -/
def Obligations.LoadChecksHeaderFirst : Prop :=
  (∀ buf : List Byte, buf.length < 5 → load buf = .error (.decode (.truncated buf.length))) ∧
  (∀ buf : List Byte, 5 ≤ buf.length → byteAt buf 0 ≠ 1 →
    load buf = .error (.decode (.badVersion (byteAt buf 0))))

/-! ### Decoding -/

/-- Words written out from the spec's encodings decode to their instructions, one or more of each format
and family (`95_test_vectors.md` E2, E3, E4, E5, E12, E15, E16, E21, E24, E27, E29). The numbers are the spec's
D1 and D2 (log 11); that bit 7 is ignored in the last two words is its D8 (log 12). -/
def Obligations.DecodesSampleWords : Prop :=
  decodeOne 5 [0x01] = .ok (1, .fwd) ∧
  decodeOne 5 [0x02, 0x01, 0x2C, 0x01] = .ok (4, .sto (.int 1) (.imm 300)) ∧
  decodeOne 5 [0x82, 0x00, 0x08] = .ok (3, .sto (.int 0) (.reg (.flt 0))) ∧
  decodeOne 5 [0x03, 0x02] = .ok (2, .inc (.int 2)) ∧
  decodeOne 5 [0x87, 0x01, 0x01] = .ok (3, .mul (.int 1) (.reg (.int 1))) ∧
  decodeOne 5 [0x09, 0x00, 0x34, 0x12] = .ok (4, .jnz (.int 0) 4660) ∧
  decodeOne 5 [0x0A, 0x08, 0x01, 0x00, 0x06, 0x00] = .ok (6, .jeq (.flt 0) (.imm 1) 6) ∧
  decodeOne 5 [0x8C, 0x0D, 0x0E, 0xFF, 0xFF] = .ok (5, .jgt (.flt 5) (.reg (.flt 6)) 65535) ∧
  decodeOne 5 [0x0E] = .ok (1, .hlt) ∧
  decodeOne 5 [0x83, 0x02] = .ok (2, .inc (.int 2)) ∧
  decodeOne 5 [0x89, 0x00, 0x01, 0x00] = .ok (4, .jnz (.int 0) 1)

/-- Decoding the encoding of an instruction gives it back, with its length, at every offset and whatever
bytes follow (R94, R101, R102). -/
def Obligations.DecodeOfEncodeIsTheInstruction : Prop :=
  ∀ (c : Nat) (i : Instr) (rest : List Byte),
    decodeOne c (encode i ++ rest) = .ok ((encode i).length, i)

/-- Bit 7 of the opcode byte is ignored on every opcode without a Value operand and on no other: what decodes is
a canonical encoding, or one with bit 7 set on such an opcode, and each of those does decode, to the same
instruction with the same length, at every offset and whatever bytes follow (R96, R102; the spec's D8, log 12). -/
def Obligations.BitSevenIsIgnoredExactlyWithoutAValue : Prop :=
  (∀ (c n : Nat) (i : Instr) (bs : List Byte), decodeOne c bs = .ok (n, i) →
    n ≤ bs.length ∧ n = (encode i).length ∧
    (bs.take n = encode i ∨
      (i.value? = none ∧ ∃ b tl, encode i = b :: tl ∧ bs.take n = (b ||| 0x80) :: tl))) ∧
  (∀ (c : Nat) (i : Instr) (b : Byte) (tl rest : List Byte), i.value? = none → encode i = b :: tl →
    decodeOne c (((b ||| 0x80) :: tl) ++ rest) = .ok ((encode i).length, i))

/-- Every opcode value 0x0F..0x7F is rejected whatever bit 7 is, 0x7F and 0xFF included, never decoded to a
default instruction (R95, R223; the numbers are D1). -/
def Obligations.UndefinedOpcodesAreRejected : Prop :=
  ∀ (c : Nat) (b : Byte) (rest : List Byte), 0x0F ≤ b.toNat % 128 →
    decodeOne c (b :: rest) = .error (.badOpcode c b)

/-- An instruction whose opcode is defined but whose bytes are not all there is `Truncated`, before its
register bytes are looked at (R94, R98, R224, R226; the order is D18). -/
def Obligations.ShortInstructionIsTruncated : Prop :=
  ∀ (c : Nat) (m : Mnemonic) (b : Byte) (rest : List Byte), opcField b = m.opc →
    (b :: rest).length < instrLen m.format (vregField b) →
    decodeOne c (b :: rest) = .error (.truncated c)

/-- A register-id byte above 0x0F is `BadRegister` with its offset, `rd` before `rs` (R94, R97, R225; the
spec's D9, D18). -/
def Obligations.RegisterByteAboveFifteenIsRejected : Prop :=
  (∀ (c : Nat) (m : Mnemonic) (b rd : Byte) (rest : List Byte), opcField b = m.opc →
    m.format ≠ .N → instrLen m.format (vregField b) ≤ (b :: rd :: rest).length → 0x0F < rd.toNat →
    decodeOne c (b :: rd :: rest) = .error (.badRegister (c + 1) rd)) ∧
  (∀ (c : Nat) (m : Mnemonic) (b rd rs : Byte) (rest : List Byte), opcField b = m.opc →
    (m.format = .RV ∨ m.format = .RVA) → vregField b = true →
    instrLen m.format (vregField b) ≤ (b :: rd :: rs :: rest).length →
    rd.toNat ≤ 0x0F → 0x0F < rs.toNat →
    decodeOne c (b :: rd :: rs :: rest) = .error (.badRegister (c + 2) rs))

/-- The decoder walks the bytes once: after any bytes that decode to instructions, canonical or with an ignored
bit 7 (R96), it goes on where they end, its answer starts with them, and its first error is the first error of
the rest, at its true offset. Canonical encodings laid end to end are such bytes (R60, R62, R80, R93, R226). -/
def Obligations.DecodingGoesOnAfterEachInstruction : Prop :=
  (∀ (c : Nat) (pre bs : List Byte) (is : List Instr), DecodesAs c pre is →
    decodeFrom c 0 (pre ++ bs) = (decodeFrom (c + pre.length) 0 bs).map (fun js => is ++ js)) ∧
  (∀ (c : Nat) (is : List Instr), DecodesAs c (encodeInstrs is) is)

/-- A decode error behind the header fails the load: `load` answers the error of the first instruction that does
not decode, with its true offset and the byte that stands there, and gives no machine, whatever decodes before
it (R93, R221 to R227; the offsets and the order of checks are the spec's D17, D18, log 13, the version D5). -/
def Obligations.FirstDecodeErrorFailsTheLoad : Prop :=
  ∀ (hdr pre bs : List Byte) (is : List Instr) (e : DecodeError),
    hdr.length = 5 → byteAt hdr 0 = 1 → DecodesAs 5 pre is → bs ≠ [] →
    decodeOne (5 + pre.length) bs = .error e →
    load (hdr ++ (pre ++ bs)) = .error (.decode e) ∧
    match e with
    | .badVersion _ => False
    | .badOpcode o b => o = 5 + pre.length ∧ b = byteAt (hdr ++ (pre ++ bs)) o
    | .truncated o => o = 5 + pre.length
    | .badRegister o b =>
      (o = 5 + pre.length + 1 ∨ o = 5 + pre.length + 2) ∧ b = byteAt (hdr ++ (pre ++ bs)) o

/-! ### The step -/

/-- A step of a `Running` machine with `pc < N` is the meaning of the instruction at `pc`, and nothing
else (R121). -/
def Obligations.StepRunsTheFetchedInstruction : Prop :=
  ∀ (s : State) (h : s.pc < s.prog.length), s.status = .running → step s = exec s.prog[s.pc] s

/-- From bytes to the step: in a program that loads, the bytes after `pre` that decode to `i` are what a
`Running` machine with that store runs at `pc` = the number of instructions before them, whatever bytes,
canonical or not, encode those (R62, R93, R94, R96, R121). -/
def Obligations.StepRunsTheLoadedBytes : Prop :=
  ∀ (hdr pre bs : List Byte) (is : List Instr) (n : Nat) (i : Instr) (s t : State),
    hdr.length = 5 → DecodesAs 5 pre is → decodeOne (5 + pre.length) bs = .ok (n, i) →
    load (hdr ++ (pre ++ bs)) = .ok s →
    t.prog = s.prog → t.status = .running → t.pc = is.length →
    step t = exec i t

/-- `PcOutOfRange`: a `Running` machine with `pc >= N` goes to `Faulted(PcOutOfRange, pc)` and changes
nothing else (R121, R232, R233; D16, D17, D22). -/
def Obligations.StepPastTheEndFaults : Prop :=
  ∀ s : State, s.status = .running → s.prog.length ≤ s.pc →
    step s = .next { s with status := .faulted .pcOutOfRange s.pc }

/-- No step leaves a terminal status (R34, R121, R136, R211, R232; the spec's D25). That `step` answers a
fault there is the model's form of "no step" (log 4). -/
def Obligations.TerminalStatusHasNoStep : Prop :=
  ∀ s : State, s.status ≠ .running →
    (s.status = .halted → step s = .fault .runHalted) ∧
    (∀ c info, s.status = .faulted c info → step s = .fault (.runFaulted c info)) ∧
    (∀ t, step s ≠ .next t)

/-- Progress: a `Running` machine always has a next state (R273). -/
def Obligations.RunningMachineAlwaysSteps : Prop :=
  ∀ s : State, s.status = .running → ∃ t, step s = .next t

/-- The invariant at reset (`Safety.lean`). That the header version is `VERSION` and the store empty before a
load is the model's choice (log 1). -/
def Obligations.ResetHasTheInvariant : Prop := State.reset.Inv

/-- The invariant after every successful load (R41, R261; `VERSION` D5, log 11, `MAXPROG` D19, log 14). -/
def Obligations.LoadEstablishesTheInvariant : Prop := ∀ buf s, load buf = .ok s → s.Inv

/-- Every step keeps the invariant: the `pc` stays in 0..65536, the store fits, `hdr_version` is `VERSION`,
diagnostics name instructions of the program, pixels carry `COLOR` (R28, R30, R36, R50, R53, R63; the bound is
the spec's D19, log 14, the diagnostic's index D20, log 18). That a halted machine stands on its `HLT` is the
spec's D15, and that a fault records the `pc` and stands on its cause its D16 and D17 (log 17, log 13). -/
def Obligations.StepKeepsTheInvariant : Prop :=
  ∀ s t : State, s.Inv → step s = .next t → t.Inv

/-- The `pc` after each instruction: the table of R29, with R122 (`HLT` is the spec's D15, a fault D16). -/
def Obligations.PcAfterEachInstruction : Prop :=
  ∀ (i : Instr) (s t : State), exec i s = .next t →
    t.pc = match i with
      | .drw => s.pc + 1
      | .fwd => s.pc + 1
      | .sto _ _ => s.pc + 1
      | .inc _ => s.pc + 1
      | .dec _ => s.pc + 1
      | .add _ _ => s.pc + 1
      | .sub _ _ => s.pc + 1
      | .mul _ _ => s.pc + 1
      | .div (.int _) v => if s.valI v = 0#16 then s.pc else s.pc + 1
      | .div (.flt _) _ => s.pc + 1
      | .jnz rd a => if s.predJnz rd then a.toNat else s.pc + 1
      | .jeq rd v a => if s.predJeq rd v then a.toNat else s.pc + 1
      | .jne rd v a => if s.predJne rd v then a.toNat else s.pc + 1
      | .jgt rd v a => if s.predJgt rd v then a.toNat else s.pc + 1
      | .jlt rd v a => if s.predJlt rd v then a.toNat else s.pc + 1
      | .hlt => s.pc

/-- The `pc` never wraps: an instruction that is no taken jump and does not end the run gives exactly `pc + 1`,
one that ends the run leaves the `pc`, and the increment at the last instruction gives `N`, which faults at the
next step. No instruction copies the `pc` into a register: the registers after an instruction do not depend on
it (R31). What the fault records and leaves is the spec's D16 and D17, that a `HLT` leaves the `pc` its D15 (log
17, log 13); that a NaN result is the same one at another `pc` is log 5. -/
def Obligations.PcNeverWrapsAndNeverReachesARegister : Prop :=
  (∀ (i : Instr) (s t : State), exec i s = .next t → s.taken i = false →
    t.pc = if s.ends i then s.pc else s.pc + 1) ∧
  (∀ (i : Instr) (s t : State) (p : Nat), exec i s = .next t →
    ∃ t', exec i { s with pc := p } = .next t' ∧
      (∀ k, t'.int k = t.int k) ∧ (∀ k, t'.flt k = t.flt k)) ∧
  (∀ (s : State) (i : Instr), s.status = .running → s.fetch = some i → s.taken i = false →
    s.ends i = false → s.pc + 1 = s.n →
    ∃ t, step s = .next t ∧ t.pc = s.n ∧ t.n = s.n ∧ t.status = .running ∧
      step t = .next { t with status := .faulted .pcOutOfRange s.n })

/-- R123: a step emits at most one pixel event and at most one diagnostic, never both; a pixel event exactly
when it runs a `FWD` with the pen down. -/
def Obligations.StepEmitsAtMostOneEvent : Prop :=
  ∀ s t : State, step s = .next t →
    (t.pixout = s.pixout ∨ ∃ p, t.pixout = s.pixout ++ [p]) ∧
    (t.diagout = s.diagout ∨ ∃ d, t.diagout = s.diagout ++ [d]) ∧
    (t.pixout = s.pixout ∨ t.diagout = s.diagout) ∧
    ((∃ p, t.pixout = s.pixout ++ [p]) ↔ s.fetch = some .fwd ∧ s.pen = true)

/-- Along every run the pixel stream only grows at its end, so no event is dropped or reordered; an emit always
appends its event; the end-of-stream signal is up exactly when the run has left `Running`, for a halt and a fault
alike (R51). That the diagnostic stream is one of its own and grows the same way is the spec's D20 (log 18). -/
def Obligations.OutputStreamsOnlyGrow : Prop :=
  (∀ (n : Nat) (s t : State), core.run n s = .next t →
    s.pixout <+: t.pixout ∧ s.diagout <+: t.diagout) ∧
  (∀ (s : State) (x y : Coord), (s.emitPixel x y).pixout = s.pixout ++ [⟨x, y, Config.color⟩]) ∧
  (∀ s : State, s.endOfStream = true ↔ s.status = .halted ∨ ∃ c info, s.status = .faulted c info)

/-- `DRW` alone writes the pen, and inverts it; `FWD` alone reads it, to emit only while it is down; it is false
at reset. For every other instruction the pen is carried along: no register, jump or event depends on it, and the
registers after `FWD` do not either (R32). That a NaN result is the same one with another pen is the model's (log
5; the spec's D23 allows it). -/
def Obligations.PenIsWrittenByDrwAndReadByFwd : Prop :=
  State.reset.pen = false ∧
  (∀ (i : Instr) (s t : State), exec i s = .next t →
    t.pen = if i = .drw then !s.pen else s.pen) ∧
  (∀ (i : Instr) (s t : State) (b : Bool), i ≠ .fwd → exec i s = .next t →
    exec i { s with pen := b } = .next { t with pen := if i = .drw then !b else b }) ∧
  (∀ (s t : State) (b : Bool), exec .fwd s = .next t → ∃ t', exec .fwd { s with pen := b } = .next t' ∧
    (∀ k, t'.int k = t.int k) ∧ (∀ k, t'.flt k = t.flt k) ∧ (b = false → t'.pixout = s.pixout))

/-- R38: the instruction store is written once, by the decoder at load, and read-only for the whole run; with
it the header registers (R36). -/
def Obligations.ProgramIsImmutableDuringARun : Prop :=
  (∀ (n : Nat) (s t : State), core.run n s = .next t → SameProgram s t) ∧
  (∀ (buf : List Byte) (n : Nat) (s t : State), load buf = .ok s → core.run n s = .next t →
    decodeFrom 5 0 (buf.drop 5) = .ok t.prog)

/-- What changes the status. Of the instructions, `HLT` alone sets `Halted` and only a `DIV` to an integer
register whose operand is zero raises a fault; every other leaves the status as it is. A step changes it so, or
by `PcOutOfRange` where there is no instruction at `pc`, and in no other way (R34, R210, R230, R232, R233; that a
fault records the `pc` and is a status of its own is the spec's D16 and D17, log 17, log 13). -/
def Obligations.StatusChangesOnlyAtHltAndAtTheTwoFaults : Prop :=
  (∀ (i : Instr) (s t : State), exec i s = .next t →
    t.status = match i with
      | .hlt => .halted
      | .div (.int _) v => if s.valI v = 0#16 then .faulted .divideByZero s.pc else s.status
      | _ => s.status) ∧
  (∀ s t : State, step s = .next t →
    t.status = match s.fetch with
      | none => .faulted .pcOutOfRange s.pc
      | some .hlt => .halted
      | some (.div (.int _) v) => if s.valI v = 0#16 then .faulted .divideByZero s.pc else .running
      | some _ => .running)

/-- What the host reads of the status: 0 running, 1 halted, 2 faulted, and after a fault `fcause` 8 or 9 and
`finfo` the `pc` (R34, R35, R37, R55, R230; D17, D21). -/
def Obligations.StatusIsVisibleAtThePorts : Prop :=
  (∀ (s : State) (c : Cause) (info : Nat), s.Inv → s.status = .faulted c info →
    s.statusBits = 2 ∧ s.finfo.toNat = s.pc ∧
    s.fcause = match c with
      | .divideByZero => 8
      | .pcOutOfRange => 9) ∧
  (∀ s : State, s.status = .running ↔ s.statusBits = 0) ∧
  (∀ s : State, s.status = .halted ↔ s.statusBits = 1) ∧
  (∀ s : State, s.terminated = true ↔ s.statusBits ≠ 0)

/-- An instruction changes no register outside its "writes" column, and a register outside its "reads"
column changes nothing it does: with another value in it, the same next state results but for that register,
which keeps the value unless the instruction writes it (R25). A `DIV` that faults does not write its register
(R25; the spec's D16, log 17). That a NaN result is the same one in both states is the model's (log 5; D23 allows
it). -/
def Obligations.RegistersReadAndWrittenAreTheListedOnes : Prop :=
  (∀ (i : Instr) (s t : State), exec i s = .next t → SameRegsBut (regsWritten i) s t) ∧
  (∀ (i : Instr) (s t : State) (k : Fin 8) (v : U16), exec i s = .next t → .int k ∉ regsRead i →
    exec i (s.setInt k v) = .next (if .int k ∈ regsWritten i then t else t.setInt k v)) ∧
  (∀ (i : Instr) (s t : State) (k : Fin 8) (v : F64), exec i s = .next t → .flt k ∉ regsRead i →
    exec i (s.setFlt k v) = .next (if .flt k ∈ regsWritten i then t else t.setFlt k v)) ∧
  (∀ (s t : State) (k : Fin 8) (v : Value) (c : Cause) (info : Nat), s.status = .running →
    exec (.div (.int k) v) s = .next t → t.status = .faulted c info → t.int k = s.int k)

/-- The two banks do not alias, and a value crosses them only by `U2F` and `F2U` (R26, R124 to R127). An instruction whose first
register is an integer register takes a float register as the integer `F2U` gives, and cannot tell two float
values with the same `F2U` apart; one whose first register is a float register takes an integer register as its
value's immediate, and as any float register that holds its `U2F`. That a register is read in its own bank before
it is converted is the spec's D29, that a jump compares in its first register's bank its D14 (log 19, R190). That
a NaN result is the same one in the states compared is the model's (log 5; D23 allows it). -/
def Obligations.BanksDoNotAlias : Prop :=
  (∀ (i : Instr) (s t : State), exec i s = .next t →
    (∀ k, .flt k ∉ regsWritten i) → ∀ j, t.flt j = s.flt j) ∧
  (∀ (i : Instr) (s t : State), exec i s = .next t →
    (∀ k, .int k ∉ regsWritten i) → ∀ j, t.int j = s.int j) ∧
  (∀ (s : State) (k j : Fin 8) (v : U16), (s.setInt k v).flt j = s.flt j) ∧
  (∀ (s : State) (k j : Fin 8) (v : F64), (s.setFlt k v).int j = s.int j) ∧
  (∀ (i : Instr) (s t : State) (k j : Fin 8) (v : F64), firstReg? i = some (.int k) →
    exec i s = .next t → f2u v = f2u (s.flt j) → exec i (s.setFlt j v) = .next (t.setFlt j v)) ∧
  (∀ (i : Instr) (s : State) (k j : Fin 8), firstReg? i = some (.int k) →
    i.value? = some (.reg (.flt j)) → exec i s = exec (withValue i (.imm (f2u (s.flt j)))) s) ∧
  (∀ (i : Instr) (s : State) (k j : Fin 8), firstReg? i = some (.flt k) →
    i.value? = some (.reg (.int j)) →
    exec i s = exec (withValue i (.imm (s.int j))) s ∧
    ∀ l, s.flt l = u2f (s.int j) → exec i s = exec (withValue i (.reg (.flt l))) s) ∧
  (∀ (s : State) (k : Fin 8), s.valI (.reg (.flt k)) = f2u (s.flt k)) ∧
  (∀ (s : State) (k : Fin 8), s.valF (.reg (.int k)) = u2f (s.int k))

/-! ### Drawing and halt -/

/-- `DRW`: the pen is inverted, the `pc` advances, nothing else changes, no event (R150). -/
def Obligations.DrwTogglesThePenOnly : Prop :=
  ∀ s : State, exec .drw s = .next { s with pen := !s.pen, pc := s.pc + 1 }

/-- `FWD`: both position registers move by `DIR(H mod 360)`, one event at the new truncated position exactly
when the pen is down, and nothing else changes, `H` included (R151, R152, R155; roles D3, D4, form D12). -/
def Obligations.FwdMovesAndPlots : Prop :=
  ∀ s : State, ∃ t, exec .fwd s = .next t ∧
    t.flt 5 = fadd (s.flt 5) (dir ((s.int 7).toNat % 360)).1 ∧
    t.flt 6 = fadd (s.flt 6) (dir ((s.int 7).toNat % 360)).2 ∧
    t.pixout = s.pixout ++
      (if s.pen then [⟨f2p (t.flt 5), f2p (t.flt 6), Config.color⟩] else []) ∧
    SameRegsBut [.flt 5, .flt 6] s t ∧ t.pc = s.pc + 1 ∧ t.pen = s.pen ∧ t.status = s.status ∧
    t.diagout = s.diagout ∧ SameProgram s t

/-- The source's pen test, one step: at any heading that is 0 modulo 360, from the origin, `FWD` reaches
`(1.0, +0.0)` and with the pen down plots `(1, 0)`; from `(x, y)` it adds 1.0 and +0.0 (R151, R153; roles D3, D4,
form D12, D33). -/
def Obligations.FwdAtHeadingZeroMovesOneUnitRight : Prop :=
  ∀ s : State, (s.int 7).toNat % 360 = 0 →
    ∃ t, exec .fwd s = .next t ∧
      t.flt 5 = fadd (s.flt 5) oneF ∧ t.flt 6 = fadd (s.flt 6) (zeroF false) ∧
      (s.flt 5 = zeroF false → s.flt 6 = zeroF false → s.pen = true →
        t.flt 5 = oneF ∧ t.flt 6 = zeroF false ∧ t.pixout = s.pixout ++ [⟨1, 0, Config.color⟩])

/-- Where the direction entry of the heading is within 2^-50 of cosine and sine (the named property of R153),
a `FWD` from the origin with the pen down plots at most one column and one row away (R151, R152, R155; roles D3,
D4, conversion D11, form D12, D33). -/
def Obligations.FwdFromOriginPlotsWithinOnePixel : Prop :=
  ∀ s t : State, DirAccurateAt ((s.int 7).toNat % 360) →
    s.flt 5 = zeroF false → s.flt 6 = zeroF false → s.pen = true → exec .fwd s = .next t →
    ∃ p, t.pixout = s.pixout ++ [p] ∧ -1 ≤ p.x.toInt ∧ p.x.toInt ≤ 1 ∧ -1 ≤ p.y.toInt ∧ p.y.toInt ≤ 1

/-- `HLT`: the status becomes `Halted` and nothing else changes (R210; that the `pc` stays is D15). -/
def Obligations.HltHaltsAndChangesNothingElse : Prop :=
  ∀ s : State, exec .hlt s = .next { s with status := .halted }

/-! ### Store and arithmetic -/

/-- `STO` to an integer register: the immediate, the integer register, or the float register through `F2U`;
no diagnostic, nothing else changed (R126, R161). -/
def Obligations.StoToIntegerRegister : Prop :=
  ∀ (s : State) (k : Fin 8) (v : Value), ∃ t, exec (.sto (.int k) v) s = .next t ∧
    PutsInt s t k (match v with
      | .imm n => n.toNat
      | .reg (.int j) => (s.int j).toNat
      | .reg (.flt j) => (f2u (s.flt j)).toNat)

/-- `STO` to a float register: the immediate or the integer register through `U2F`, or the float register's
datum itself (R127, R161). -/
def Obligations.StoToFloatRegister : Prop :=
  ∀ (s : State) (k : Fin 8) (v : Value), ∃ t, exec (.sto (.flt k) v) s = .next t ∧
    PutsFlt s t k (match v with
      | .imm n => u2f n
      | .reg (.int j) => u2f (s.int j)
      | .reg (.flt j) => s.flt j)

/-- `INC DEC ADD SUB MUL` on an integer register: the exact result modulo 2^16, the diagnostic exactly when
the exact result is outside 0..65535, nothing else changed (R130, R135, R160, R162 to R166; D32). -/
def Obligations.IntegerArithmeticWrapsWithADiagnostic : Prop :=
  ∀ (s : State) (k : Fin 8) (v : Value),
    (∃ t, exec (.inc (.int k)) s = .next t ∧ PutsInt s t k ((s.int k).toNat + 1)) ∧
    (∃ t, exec (.dec (.int k)) s = .next t ∧ PutsInt s t k ((s.int k).toNat - 1)) ∧
    (∃ t, exec (.add (.int k) v) s = .next t ∧
      PutsInt s t k ((s.int k).toNat + (s.valI v).toNat)) ∧
    (∃ t, exec (.sub (.int k) v) s = .next t ∧
      PutsInt s t k ((s.int k).toNat - (s.valI v).toNat)) ∧
    (∃ t, exec (.mul (.int k) v) s = .next t ∧
      PutsInt s t k ((s.int k).toNat * (s.valI v).toNat))

/-- `INC DEC ADD SUB MUL DIV` on a float register: the operation with 1.0 or the operand; no diagnostic, no
fault, nothing else changed (R160, R162 to R167, R169). R134: no instruction that writes no integer register
emits a diagnostic or raises a fault, and a float `DIV` by a zero gives an infinity or a NaN and goes on. -/
def Obligations.FloatArithmeticIsSilent : Prop :=
  (∀ (i : Instr) (s t : State), (∀ k, .int k ∉ regsWritten i) → exec i s = .next t →
    t.diagout = s.diagout ∧ (i ≠ .hlt → t.status = s.status)) ∧
  (∀ a b : F64, isZero b = true → isInf (fdiv a b) = true ∨ isNaN (fdiv a b) = true) ∧
  ∀ (s : State) (k : Fin 8) (v : Value),
    (∃ t, exec (.inc (.flt k)) s = .next t ∧ PutsFlt s t k (fadd (s.flt k) oneF)) ∧
    (∃ t, exec (.dec (.flt k)) s = .next t ∧ PutsFlt s t k (fsub (s.flt k) oneF)) ∧
    (∃ t, exec (.add (.flt k) v) s = .next t ∧ PutsFlt s t k (fadd (s.flt k) (s.valF v))) ∧
    (∃ t, exec (.sub (.flt k) v) s = .next t ∧ PutsFlt s t k (fsub (s.flt k) (s.valF v))) ∧
    (∃ t, exec (.mul (.flt k) v) s = .next t ∧ PutsFlt s t k (fmul (s.flt k) (s.valF v))) ∧
    (∃ t, exec (.div (.flt k) v) s = .next t ∧ PutsFlt s t k (fdiv (s.flt k) (s.valF v)))

/-- `DIV` on an integer register with a non-zero operand: the quotient rounded down, never a diagnostic,
nothing else changed (R130, R167; D30). -/
def Obligations.IntegerDivisionIsTheUnsignedQuotient : Prop :=
  ∀ (s : State) (k : Fin 8) (v : Value), s.valI v ≠ 0#16 →
    ∃ t, exec (.div (.int k) v) s = .next t ∧
      PutsInt s t k ((s.int k).toNat / (s.valI v).toNat) ∧ t.diagout = s.diagout

/-- `DIV` on an integer register with a zero operand goes to `Faulted(DivideByZero, pc)` and changes nothing
else; the dividend and the `pc` stay (R167, R231, R232; D16, D17). -/
def Obligations.IntegerDivisionByZeroFaults : Prop :=
  ∀ (s : State) (k : Fin 8) (v : Value), s.valI v = 0#16 →
    exec (.div (.int k) v) s = .next { s with status := .faulted .divideByZero s.pc }

/-- An integer `DIV` by a float register faults exactly when that register is a NaN or below 1.0 (R128,
R167; D10). -/
def Obligations.IntegerDivisionByFloatFaultsBelowOne : Prop :=
  ∀ (s t : State) (k j : Fin 8), s.status = .running →
    exec (.div (.int k) (.reg (.flt j))) s = .next t →
    (t.status = .faulted .divideByZero s.pc ↔ isNaN (s.flt j) = true ∨ flt (s.flt j) oneF = true)

/-- `INC rd` does what `ADD rd 1` does, `DEC rd` what `SUB rd 1` does, and `JNZ rd a` what `JNE rd 0 a` does,
in both banks (R103, R192; `JNZ` on a float register is the spec's D13, log 19). That on a NaN both forms give the
same NaN is the model's (log 5; the spec's D23 allows it). -/
def Obligations.IncDecJnzAreShortForms : Prop :=
  ∀ (s : State) (rd : RegId) (a : Addr),
    exec (.inc rd) s = exec (.add rd (.imm 1)) s ∧
    exec (.dec rd) s = exec (.sub rd (.imm 1)) s ∧
    exec (.jnz rd a) s = exec (.jne rd (.imm 0) a) s

/-- The same register on both sides: operands are read before the register is written (R139; what the fault
leaves is D16 and D17, the bank of a jump D14). -/
def Obligations.SameRegisterUsesTheOldValue : Prop :=
  ∀ (s : State) (k : Fin 8) (a : Addr),
    (∃ t, exec (.add (.int k) (.reg (.int k))) s = .next t ∧
      ((t.int k).toNat = 2 * (s.int k).toNat % 65536)) ∧
    (∃ t, exec (.sub (.int k) (.reg (.int k))) s = .next t ∧ t.int k = 0#16 ∧ t.diagout = s.diagout) ∧
    (∃ t, exec (.mul (.flt k) (.reg (.flt k))) s = .next t ∧ t.flt k = fmul (s.flt k) (s.flt k)) ∧
    (s.int k ≠ 0#16 → ∃ t, exec (.div (.int k) (.reg (.int k))) s = .next t ∧ t.int k = 1#16) ∧
    (s.int k = 0#16 → exec (.div (.int k) (.reg (.int k))) s = .next (s.raise .divideByZero)) ∧
    exec (.jeq (.int k) (.reg (.int k)) a) s = .next { s with pc := a.toNat } ∧
    exec (.jeq (.flt k) (.reg (.flt k)) a) s =
      .next { s with pc := if isFinite (s.flt k) then a.toNat else s.pc + 1 }

/-! ### Jumps -/

/-- The five jumps on an integer register: unsigned comparison with the converted operand; only the `pc`
changes, to the address when the predicate holds (R190 to R196; the bank is D14). -/
def Obligations.IntegerJumpsCompareUnsigned : Prop :=
  ∀ (s : State) (k : Fin 8) (v : Value) (a : Addr),
    exec (.jnz (.int k) a) s =
      .next { s with pc := if s.int k ≠ 0#16 then a.toNat else s.pc + 1 } ∧
    exec (.jeq (.int k) v a) s =
      .next { s with pc := if s.int k = s.valI v then a.toNat else s.pc + 1 } ∧
    exec (.jne (.int k) v a) s =
      .next { s with pc := if s.int k ≠ s.valI v then a.toNat else s.pc + 1 } ∧
    exec (.jgt (.int k) v a) s =
      .next { s with pc := if (s.valI v).toNat < (s.int k).toNat then a.toNat else s.pc + 1 } ∧
    exec (.jlt (.int k) v a) s =
      .next { s with pc := if (s.int k).toNat < (s.valI v).toNat then a.toNat else s.pc + 1 }

/-- The five jumps on a float register: `JNZ JEQ JNE` by the rounded distance against `EPS`, `JGT JLT`
exact; only the `pc` changes (R190 to R196; the bank is D14, `JNZ` D13). -/
def Obligations.FloatJumpsCompareWithTolerance : Prop :=
  ∀ (s : State) (k : Fin 8) (v : Value) (a : Addr),
    let x := s.flt k
    let y := s.valF v
    exec (.jnz (.flt k) a) s =
      .next { s with pc := if fgt (fabs x) eps then a.toNat else s.pc + 1 } ∧
    exec (.jeq (.flt k) v a) s =
      .next { s with pc := if flt (fabs (fsub x y)) eps then a.toNat else s.pc + 1 } ∧
    exec (.jne (.flt k) v a) s =
      .next { s with pc := if fgt (fabs (fsub x y)) eps then a.toNat else s.pc + 1 } ∧
    exec (.jgt (.flt k) v a) s =
      .next { s with pc := if fgt x y then a.toNat else s.pc + 1 } ∧
    exec (.jlt (.flt k) v a) s =
      .next { s with pc := if flt x y then a.toNat else s.pc + 1 }

/-- The tolerance band, all four rows: below `EPS` only `JEQ` jumps, at `EPS` neither, above it only `JNE`;
the distance is a NaN exactly for a NaN operand or two infinities of one sign, and then neither (R198). -/
def Obligations.ToleranceBandOfJeqAndJne : Prop :=
  ∀ (s : State) (k : Fin 8) (v : Value),
    let d := fabs (fsub (s.flt k) (s.valF v))
    (flt d eps = true → s.predJeq (.flt k) v = true ∧ s.predJne (.flt k) v = false) ∧
    (d = eps → s.predJeq (.flt k) v = false ∧ s.predJne (.flt k) v = false) ∧
    (fgt d eps = true → s.predJeq (.flt k) v = false ∧ s.predJne (.flt k) v = true) ∧
    (isNaN d = true → s.predJeq (.flt k) v = false ∧ s.predJne (.flt k) v = false) ∧
    (flt d eps = true ∨ d = eps ∨ fgt d eps = true ∨ isNaN d = true) ∧
    (isNaN d = true ↔ isNaN (s.flt k) = true ∨ isNaN (s.valF v) = true ∨
      (isInf (s.flt k) = true ∧ s.valF v = s.flt k))

/-- A jump on a float register is not taken where the register or its operand is a NaN (R131, R191, R193 to R196,
R198; the bank is the spec's D14). That `JNZ` does not jump on a NaN is its D13 (log 19). An integer register
takes a NaN operand as 0 (`F2U`), which is not this case. -/
def Obligations.NaNNeverJumpsOnAFloatRegister : Prop :=
  ∀ (s : State) (k : Fin 8) (v : Value) (a : Addr),
    (isNaN (s.flt k) = true → exec (.jnz (.flt k) a) s = .next { s with pc := s.pc + 1 }) ∧
    (isNaN (s.flt k) = true ∨ isNaN (s.valF v) = true →
      exec (.jeq (.flt k) v a) s = .next { s with pc := s.pc + 1 } ∧
      exec (.jne (.flt k) v a) s = .next { s with pc := s.pc + 1 } ∧
      exec (.jgt (.flt k) v a) s = .next { s with pc := s.pc + 1 } ∧
      exec (.jlt (.flt k) v a) s = .next { s with pc := s.pc + 1 })

/-- `0 < EPS < 1` (log 6), so a float register and an operand that hold different integers, of any size and
sign, are never equal to `JEQ` and always unequal to `JNE`, and equal ones are: the operand an immediate, an
integer register or a float register (R8, R191, R198; the bank is D14). -/
def Obligations.EpsilonSeparatesIntegers : Prop :=
  flt (zeroF false) eps = true ∧ flt eps oneF = true ∧
  ∀ (s : State) (k : Fin 8) (v : Value) (m n : Int),
    isFinite (s.flt k) = true → isFinite (s.valF v) = true →
    valueOf (s.flt k) = m * unitsPerOne → valueOf (s.valF v) = n * unitsPerOne →
    s.predJeq (.flt k) v = decide (m = n) ∧ s.predJne (.flt k) v = decide (m ≠ n)

/-! ### Binary64 -/

/-- `fadd` and `fsub` of finite numbers are correctly rounded: the nearest binary64 to the exact sum or
difference, ties to even, infinity on overflow, with the sign of a non-zero exact result, which never underflows
to zero (R131; rounding mode D24). The sign of a zero result is not stated. -/
def Obligations.SumAndDifferenceAreCorrectlyRounded : Prop :=
  ∀ a b : F64, isFinite a = true → isFinite b = true →
    CorrectlyRounded (valueOf a + valueOf b) 1 (fadd a b) ∧
    CorrectlyRounded (valueOf a - valueOf b) 1 (fsub a b)

/-- `fmul` of finite numbers is correctly rounded (R131; D24). In units the exact product is the product of
the values over the units of 1.0. That a non-zero product which underflows to zero keeps its sign is the model's
(log 16, PRESUMED from IEEE 754). -/
def Obligations.ProductIsCorrectlyRounded : Prop :=
  ∀ a b : F64, isFinite a = true → isFinite b = true →
    CorrectlyRounded (valueOf a * valueOf b) unitsPerOne (fmul a b)

/-- `fdiv` of finite numbers by a non-zero one is correctly rounded (R131; D24). That a non-zero quotient which
underflows to zero keeps its sign is the model's (log 16, PRESUMED from IEEE 754). -/
def Obligations.QuotientIsCorrectlyRounded : Prop :=
  ∀ a b : F64, isFinite a = true → isFinite b = true → isZero b = false →
    CorrectlyRounded (valueOf a * unitsPerOne * (valueOf b).sign) (valueOf b).natAbs (fdiv a b)

/-- The special results R131 and R132 list: NaN operands, `inf - inf`, `0 * inf`, `0 / 0`, `inf / inf`, and
a non-zero finite number by a zero; and what the comparisons `flt` and `fgt` say: the order of the values, false
on a NaN, the two zeros equal, an infinity beyond every finite number (R131; D24). -/
def Obligations.SpecialFloatResults : Prop :=
  (∀ a b : F64, isNaN a = true ∨ isNaN b = true →
    isNaN (fadd a b) = true ∧ isNaN (fsub a b) = true ∧ isNaN (fmul a b) = true ∧
    isNaN (fdiv a b) = true) ∧
  (∀ a : F64, isInf a = true → isNaN (fsub a a) = true) ∧
  (∀ a b : F64, isZero a = true → isInf b = true →
    isNaN (fmul a b) = true ∧ isNaN (fmul b a) = true) ∧
  (∀ a b : F64, isZero a = true → isZero b = true → isNaN (fdiv a b) = true) ∧
  (∀ a b : F64, isInf a = true → isInf b = true → isNaN (fdiv a b) = true) ∧
  (∀ a b : F64, isFinite a = true → isZero a = false → isZero b = true →
    fdiv a b = infF (isNeg a != isNeg b)) ∧
  (∀ a b : F64, (flt a b = true ↔ isNaN a = false ∧ isNaN b = false ∧ valueOf a < valueOf b) ∧
    (fgt a b = true ↔ isNaN a = false ∧ isNaN b = false ∧ valueOf b < valueOf a)) ∧
  (∀ a b : F64, isZero a = true → isZero b = true → flt a b = false ∧ fgt a b = false) ∧
  (∀ a : F64, isFinite a = true → flt a (infF false) = true ∧ fgt a (infF true) = true)

/-- The results on an infinite operand (R131, R162, R164, R198; the spec's D24, G1). An infinity plus or minus
anything but a NaN and the infinity that cancels it is that infinity, negated where it is subtracted, and with the
cancelling one a NaN. Times anything but a NaN and a zero, and divided by anything finite, it is an infinity with
the exclusive-or of the signs. A finite number by an infinity is a zero, whose sign is the model's (log 16,
PRESUMED from IEEE 754). The absolute value of an infinity is the positive one, so an infinity lies beyond every
tolerance from every other number: `JNE` jumps and `JEQ` does not (the bank of a jump is D14, log 19). -/
def Obligations.InfiniteOperandResults : Prop :=
  (∀ a b : F64, isInf a = true → isNaN b = false → (isInf b = true → isNeg a = isNeg b) →
    fadd a b = a ∧ fadd b a = a) ∧
  (∀ a b : F64, isInf a = true → isNaN b = false → (isInf b = true → isNeg a ≠ isNeg b) →
    fsub a b = a ∧ fsub b a = infF (!isNeg a)) ∧
  (∀ a b : F64, isInf a = true → isInf b = true →
    (isNeg a ≠ isNeg b → isNaN (fadd a b) = true) ∧ (isNeg a = isNeg b → isNaN (fsub a b) = true)) ∧
  (∀ a b : F64, isInf a = true → isNaN b = false → isZero b = false →
    fmul a b = infF (isNeg a != isNeg b) ∧ fmul b a = infF (isNeg a != isNeg b)) ∧
  (∀ a b : F64, isInf a = true → isFinite b = true → fdiv a b = infF (isNeg a != isNeg b)) ∧
  (∀ a b : F64, isFinite a = true → isInf b = true → fdiv a b = zeroF (isNeg a != isNeg b)) ∧
  (∀ a : F64, isInf a = true → fabs a = infF false) ∧
  (∀ (s : State) (k : Fin 8) (v : Value), isNaN (s.flt k) = false → isNaN (s.valF v) = false →
    isInf (s.flt k) = true ∨ isInf (s.valF v) = true → s.flt k ≠ s.valF v →
    s.predJne (.flt k) v = true ∧ s.predJeq (.flt k) v = false)

/-- `U2F` is exact, and `F2U` undoes it (R127, R128). -/
def Obligations.IntegerToFloatIsExact : Prop :=
  ∀ n : U16, valueOf (u2f n) = n.toNat * unitsPerOne ∧ isFinite (u2f n) = true ∧ f2u (u2f n) = n

/-- `F2U`: a NaN gives 0, every other datum its integer part clamped to 0..65535 (R128; D10). -/
def Obligations.FloatToIntegerTruncatesAndClamps : Prop :=
  ∀ f : F64, (isNaN f = true → f2u f = 0) ∧
    (isNaN f = false →
      ((f2u f).toNat : Int) = max 0 (min 65535 (valueOf f / (unitsPerOne : Int))))

/-- `F2P`: a NaN gives 0, every other datum its integer part, toward zero, clamped to the signed 32-bit range
(R129; D11). -/
def Obligations.FloatToPixelTruncatesAndClamps : Prop :=
  ∀ f : F64, (isNaN f = true → f2p f = 0) ∧
    (isNaN f = false → (f2p f).toInt =
      max (-2147483648) (min 2147483647 ((valueOf f).tdiv (unitsPerOne : Int))))

/-- Rounding never turns a non-zero distance into zero: of finite numbers only equal values are at distance
zero (R198; the spec's G4). -/
def Obligations.RoundedDistanceIsZeroOnlyForEqualValues : Prop :=
  ∀ a b : F64, isFinite a = true → isFinite b = true →
    (isZero (fabs (fsub a b)) = true ↔ valueOf a = valueOf b)

/-- NaN bits are unobservable: from two states alike but for the bits of NaNs a step ends alike, with the same
events, status and `pc`, and the next states are again alike (R132). -/
def Obligations.NaNBitsAreUnobservable : Prop :=
  ∀ s t : State, SameUpToNaN s t →
    (∀ s', step s = .next s' → ∃ t', step t = .next t' ∧ SameUpToNaN s' t') ∧
    (∀ f, step s = .fault f → step t = .fault f)
end

