-- ==== Sys2Proof/Laws/Decode.lean ====
section
/-! SUPPORT. The small lemmas of the encoding tables and fields: each number, field and part is read back
from what the encoder writes, and nothing else gives it. -/

namespace Sys2Proof

/-! ### Register ids (R21, R85) -/

@[simp] theorem regOfByte_byteOfReg (r : RegId) : regOfByte (byteOfReg r) = some r := by
  cases r with
  | int k => revert k; decide
  | flt k => revert k; decide

theorem byteOfReg_of_regOfByte {b : Byte} {r : RegId} (h : regOfByte b = some r) :
    byteOfReg r = b := by
  unfold regOfByte at h
  split at h
  · rename_i hw
    simp only [regByteWf, decide_eq_true_eq] at hw
    split at h
    · cases h
      apply BitVec.eq_of_toNat_eq
      simp only [byteOfReg, Fin.ofNat, BitVec.toNat_ofNat]
      omega
    · cases h
      apply BitVec.eq_of_toNat_eq
      simp only [byteOfReg, Fin.ofNat, BitVec.toNat_ofNat]
      omega
  · cases h

theorem regOfByte_none_iff (b : Byte) : regOfByte b = none ↔ 0x0F < b.toNat := by
  simp [regOfByte, regByteWf]

@[simp] theorem decodeReg_byteOfReg (c : Nat) (r : RegId) : decodeReg c (byteOfReg r) = .ok r := by
  simp [decodeReg]

theorem decodeReg_ok {c : Nat} {b : Byte} {r : RegId} (h : decodeReg c b = .ok r) :
    byteOfReg r = b := by
  unfold decodeReg at h
  split at h
  · cases h; exact byteOfReg_of_regOfByte ‹_›
  · cases h

theorem decodeReg_bad (c : Nat) {b : Byte} (h : 0x0F < b.toNat) :
    decodeReg c b = .error (.badRegister c b) := by
  simp [decodeReg, (regOfByte_none_iff b).mpr h]

/-! ### The opcode byte (R83, R90) -/

@[simp] theorem mnemonicOf_opc (m : Mnemonic) : mnemonicOf m.opc = some m := by
  cases m <;> decide

theorem opc_of_mnemonicOf {o : BitVec 7} {m : Mnemonic} (h : mnemonicOf o = some m) : m.opc = o := by
  simpa using List.find?_some h

@[simp] theorem opcField_opcodeByte (m : Mnemonic) (v : Bool) : opcField (opcodeByte m v) = m.opc := by
  cases m <;> cases v <;> decide

@[simp] theorem vregField_opcodeByte (m : Mnemonic) (v : Bool) : vregField (opcodeByte m v) = v := by
  cases m <;> cases v <;> decide

theorem opcodeByte_of_fields {b : Byte} {m : Mnemonic} (h : m.opc = opcField b) :
    opcodeByte m (vregField b) = b := by
  have hb := b.isLt
  rw [opcodeByte, h, opcField, vregField, BitVec.msb_eq_decide]
  apply BitVec.eq_of_toNat_eq
  rw [BitVec.toNat_append, ← Nat.shiftLeft_add_eq_or_of_lt (BitVec.isLt _), Nat.shiftLeft_eq]
  rw [BitVec.extractLsb'_toNat, Nat.shiftRight_zero]
  rcases Nat.lt_or_ge b.toNat (2 ^ (8 - 1)) with h7 | h7
  · rw [decide_eq_false (Nat.not_le.mpr h7), show (BitVec.ofBool false).toNat = 0 from rfl]
    omega
  · rw [decide_eq_true h7, show (BitVec.ofBool true).toNat = 1 from rfl]
    omega

/-! ### Little-endian fields (R10, R64) -/

theorem append_extract (n : U16) : n.extractLsb' 8 8 ++ n.extractLsb' 0 8 = n := by
  apply BitVec.eq_of_toNat_eq
  have := n.isLt
  simp only [BitVec.toNat_append, BitVec.extractLsb'_toNat, Nat.shiftRight_eq_div_pow]
  rw [← Nat.shiftLeft_add_eq_or_of_lt (by omega), Nat.shiftLeft_eq]
  omega

theorem le16Bytes_append (lo hi : Byte) : le16Bytes (hi ++ lo) = [lo, hi] := by
  have hl := lo.isLt
  have hh := hi.isLt
  have h : (hi ++ lo).toNat = hi.toNat * 256 + lo.toNat := by
    rw [BitVec.toNat_append, ← Nat.shiftLeft_add_eq_or_of_lt hl, Nat.shiftLeft_eq]
  simp only [le16Bytes, List.cons.injEq, and_true]
  constructor <;> apply BitVec.eq_of_toNat_eq <;>
    simp only [BitVec.extractLsb'_toNat, h, Nat.shiftRight_eq_div_pow] <;> omega

@[simp] theorem le16Bytes_length (n : U16) : (le16Bytes n).length = 2 := rfl

/-- `LE16(buf, i) = buf[i] + 256 * buf[i+1]` (R10). -/
theorem le16_toNat (bs : List Byte) (k : Nat) :
    (le16 bs k).toNat = (byteAt bs k).toNat + 256 * (byteAt bs (k + 1)).toNat := by
  rw [le16, BitVec.toNat_append, ← Nat.shiftLeft_add_eq_or_of_lt (byteAt bs k).isLt, Nat.shiftLeft_eq]
  omega

/-- A little-endian field reads back, wherever it stands. -/
theorem le16_of_le16Bytes (pre : List Byte) (n : U16) (rest : List Byte) :
    le16 (pre ++ (le16Bytes n ++ rest)) pre.length = n := by
  have h0 : byteAt (pre ++ (le16Bytes n ++ rest)) pre.length = n.extractLsb' 0 8 := by
    simp [byteAt, le16Bytes, List.getD]
  have h1 : byteAt (pre ++ (le16Bytes n ++ rest)) (pre.length + 1) = n.extractLsb' 8 8 := by
    simp [byteAt, le16Bytes, List.getD]
  rw [le16, h0, h1, append_extract]

/-! ### Lengths (R89) -/

theorem encodeRV_length (m : Mnemonic) (rd : RegId) (v : Value) :
    (encodeRV m rd v).length = 2 + valueLen .RV v.isReg := by
  cases v <;> simp [encodeRV, encodeValue, valueLen, Value.isReg]

theorem instrLen_pos (f : Format) (v : Bool) : 0 < instrLen f v := by
  cases f <;> cases v <;> decide

theorem instrLen_le_six (f : Format) (v : Bool) : instrLen f v ≤ 6 := by
  cases f <;> cases v <;> decide

/-! ### The loop (R93) -/

/-- Bytes of an instruction already decoded are passed over. -/
theorem decodeFrom_skip (pre bs : List Byte) (c : Nat) :
    decodeFrom c pre.length (pre ++ bs) = decodeFrom (c + pre.length) 0 bs := by
  induction pre generalizing c with
  | nil => rfl
  | cons b pre ih =>
    rw [List.cons_append, List.length_cons, decodeFrom, ih]
    congr 1
    omega

end Sys2Proof
end

