-- ==== Sys2Proof/Laws/State.lean ====
section
/-! SUPPORT. One lemma per field per named update, so that no proof unfolds a record update. -/

namespace Sys2Proof.Machine

variable (s : State)

/-! ### `setInt` -/

@[simp] theorem State.setInt_xi (k : Fin 8) (v : U16) : (s.setInt k v).xi = s.xi.set k v := rfl
@[simp] theorem State.setInt_xf (k : Fin 8) (v : U16) : (s.setInt k v).xf = s.xf := rfl
@[simp] theorem State.setInt_pc (k : Fin 8) (v : U16) : (s.setInt k v).pc = s.pc := rfl
@[simp] theorem State.setInt_pen (k : Fin 8) (v : U16) : (s.setInt k v).pen = s.pen := rfl
@[simp] theorem State.setInt_status (k : Fin 8) (v : U16) : (s.setInt k v).status = s.status := rfl
@[simp] theorem State.setInt_hdrVersion (k : Fin 8) (v : U16) : (s.setInt k v).hdrVersion = s.hdrVersion := rfl
@[simp] theorem State.setInt_hdrWidth (k : Fin 8) (v : U16) : (s.setInt k v).hdrWidth = s.hdrWidth := rfl
@[simp] theorem State.setInt_hdrHeight (k : Fin 8) (v : U16) : (s.setInt k v).hdrHeight = s.hdrHeight := rfl
@[simp] theorem State.setInt_prog (k : Fin 8) (v : U16) : (s.setInt k v).prog = s.prog := rfl
@[simp] theorem State.setInt_pixout (k : Fin 8) (v : U16) : (s.setInt k v).pixout = s.pixout := rfl
@[simp] theorem State.setInt_diagout (k : Fin 8) (v : U16) : (s.setInt k v).diagout = s.diagout := rfl

/-! ### `setFlt` -/

@[simp] theorem State.setFlt_xi (k : Fin 8) (v : F64) : (s.setFlt k v).xi = s.xi := rfl
@[simp] theorem State.setFlt_xf (k : Fin 8) (v : F64) : (s.setFlt k v).xf = s.xf.set k v := rfl
@[simp] theorem State.setFlt_pc (k : Fin 8) (v : F64) : (s.setFlt k v).pc = s.pc := rfl
@[simp] theorem State.setFlt_pen (k : Fin 8) (v : F64) : (s.setFlt k v).pen = s.pen := rfl
@[simp] theorem State.setFlt_status (k : Fin 8) (v : F64) : (s.setFlt k v).status = s.status := rfl
@[simp] theorem State.setFlt_hdrVersion (k : Fin 8) (v : F64) : (s.setFlt k v).hdrVersion = s.hdrVersion := rfl
@[simp] theorem State.setFlt_hdrWidth (k : Fin 8) (v : F64) : (s.setFlt k v).hdrWidth = s.hdrWidth := rfl
@[simp] theorem State.setFlt_hdrHeight (k : Fin 8) (v : F64) : (s.setFlt k v).hdrHeight = s.hdrHeight := rfl
@[simp] theorem State.setFlt_prog (k : Fin 8) (v : F64) : (s.setFlt k v).prog = s.prog := rfl
@[simp] theorem State.setFlt_pixout (k : Fin 8) (v : F64) : (s.setFlt k v).pixout = s.pixout := rfl
@[simp] theorem State.setFlt_diagout (k : Fin 8) (v : F64) : (s.setFlt k v).diagout = s.diagout := rfl

/-! ### `advance` -/

@[simp] theorem State.advance_xi : (s.advance).xi = s.xi := rfl
@[simp] theorem State.advance_xf : (s.advance).xf = s.xf := rfl
@[simp] theorem State.advance_pc : (s.advance).pc = s.pc + 1 := rfl
@[simp] theorem State.advance_pen : (s.advance).pen = s.pen := rfl
@[simp] theorem State.advance_status : (s.advance).status = s.status := rfl
@[simp] theorem State.advance_hdrVersion : (s.advance).hdrVersion = s.hdrVersion := rfl
@[simp] theorem State.advance_hdrWidth : (s.advance).hdrWidth = s.hdrWidth := rfl
@[simp] theorem State.advance_hdrHeight : (s.advance).hdrHeight = s.hdrHeight := rfl
@[simp] theorem State.advance_prog : (s.advance).prog = s.prog := rfl
@[simp] theorem State.advance_pixout : (s.advance).pixout = s.pixout := rfl
@[simp] theorem State.advance_diagout : (s.advance).diagout = s.diagout := rfl

/-! ### `jump` -/

@[simp] theorem State.jump_xi (a : Addr) : (s.jump a).xi = s.xi := rfl
@[simp] theorem State.jump_xf (a : Addr) : (s.jump a).xf = s.xf := rfl
@[simp] theorem State.jump_pc (a : Addr) : (s.jump a).pc = a.toNat := rfl
@[simp] theorem State.jump_pen (a : Addr) : (s.jump a).pen = s.pen := rfl
@[simp] theorem State.jump_status (a : Addr) : (s.jump a).status = s.status := rfl
@[simp] theorem State.jump_hdrVersion (a : Addr) : (s.jump a).hdrVersion = s.hdrVersion := rfl
@[simp] theorem State.jump_hdrWidth (a : Addr) : (s.jump a).hdrWidth = s.hdrWidth := rfl
@[simp] theorem State.jump_hdrHeight (a : Addr) : (s.jump a).hdrHeight = s.hdrHeight := rfl
@[simp] theorem State.jump_prog (a : Addr) : (s.jump a).prog = s.prog := rfl
@[simp] theorem State.jump_pixout (a : Addr) : (s.jump a).pixout = s.pixout := rfl
@[simp] theorem State.jump_diagout (a : Addr) : (s.jump a).diagout = s.diagout := rfl

/-! ### `raise` -/

@[simp] theorem State.raise_xi (c : Cause) : (s.raise c).xi = s.xi := rfl
@[simp] theorem State.raise_xf (c : Cause) : (s.raise c).xf = s.xf := rfl
@[simp] theorem State.raise_pc (c : Cause) : (s.raise c).pc = s.pc := rfl
@[simp] theorem State.raise_pen (c : Cause) : (s.raise c).pen = s.pen := rfl
@[simp] theorem State.raise_status (c : Cause) : (s.raise c).status = .faulted c s.pc := rfl
@[simp] theorem State.raise_hdrVersion (c : Cause) : (s.raise c).hdrVersion = s.hdrVersion := rfl
@[simp] theorem State.raise_hdrWidth (c : Cause) : (s.raise c).hdrWidth = s.hdrWidth := rfl
@[simp] theorem State.raise_hdrHeight (c : Cause) : (s.raise c).hdrHeight = s.hdrHeight := rfl
@[simp] theorem State.raise_prog (c : Cause) : (s.raise c).prog = s.prog := rfl
@[simp] theorem State.raise_pixout (c : Cause) : (s.raise c).pixout = s.pixout := rfl
@[simp] theorem State.raise_diagout (c : Cause) : (s.raise c).diagout = s.diagout := rfl

/-! ### `halt` -/

@[simp] theorem State.halt_xi : (s.halt).xi = s.xi := rfl
@[simp] theorem State.halt_xf : (s.halt).xf = s.xf := rfl
@[simp] theorem State.halt_pc : (s.halt).pc = s.pc := rfl
@[simp] theorem State.halt_pen : (s.halt).pen = s.pen := rfl
@[simp] theorem State.halt_status : (s.halt).status = .halted := rfl
@[simp] theorem State.halt_hdrVersion : (s.halt).hdrVersion = s.hdrVersion := rfl
@[simp] theorem State.halt_hdrWidth : (s.halt).hdrWidth = s.hdrWidth := rfl
@[simp] theorem State.halt_hdrHeight : (s.halt).hdrHeight = s.hdrHeight := rfl
@[simp] theorem State.halt_prog : (s.halt).prog = s.prog := rfl
@[simp] theorem State.halt_pixout : (s.halt).pixout = s.pixout := rfl
@[simp] theorem State.halt_diagout : (s.halt).diagout = s.diagout := rfl

/-! ### `emitPixel` -/

@[simp] theorem State.emitPixel_xi (x y : Coord) : (s.emitPixel x y).xi = s.xi := rfl
@[simp] theorem State.emitPixel_xf (x y : Coord) : (s.emitPixel x y).xf = s.xf := rfl
@[simp] theorem State.emitPixel_pc (x y : Coord) : (s.emitPixel x y).pc = s.pc := rfl
@[simp] theorem State.emitPixel_pen (x y : Coord) : (s.emitPixel x y).pen = s.pen := rfl
@[simp] theorem State.emitPixel_status (x y : Coord) : (s.emitPixel x y).status = s.status := rfl
@[simp] theorem State.emitPixel_hdrVersion (x y : Coord) : (s.emitPixel x y).hdrVersion = s.hdrVersion := rfl
@[simp] theorem State.emitPixel_hdrWidth (x y : Coord) : (s.emitPixel x y).hdrWidth = s.hdrWidth := rfl
@[simp] theorem State.emitPixel_hdrHeight (x y : Coord) : (s.emitPixel x y).hdrHeight = s.hdrHeight := rfl
@[simp] theorem State.emitPixel_prog (x y : Coord) : (s.emitPixel x y).prog = s.prog := rfl
@[simp] theorem State.emitPixel_pixout (x y : Coord) : (s.emitPixel x y).pixout = s.pixout ++ [⟨x, y, Config.color⟩] := rfl
@[simp] theorem State.emitPixel_diagout (x y : Coord) : (s.emitPixel x y).diagout = s.diagout := rfl

/-! ### `emitWrap` -/

@[simp] theorem State.emitWrap_xi (w : Bool) : (s.emitWrap w).xi = s.xi := by
  cases w <;> rfl
@[simp] theorem State.emitWrap_xf (w : Bool) : (s.emitWrap w).xf = s.xf := by
  cases w <;> rfl
@[simp] theorem State.emitWrap_pc (w : Bool) : (s.emitWrap w).pc = s.pc := by
  cases w <;> rfl
@[simp] theorem State.emitWrap_pen (w : Bool) : (s.emitWrap w).pen = s.pen := by
  cases w <;> rfl
@[simp] theorem State.emitWrap_status (w : Bool) : (s.emitWrap w).status = s.status := by
  cases w <;> rfl
@[simp] theorem State.emitWrap_hdrVersion (w : Bool) : (s.emitWrap w).hdrVersion = s.hdrVersion := by
  cases w <;> rfl
@[simp] theorem State.emitWrap_hdrWidth (w : Bool) : (s.emitWrap w).hdrWidth = s.hdrWidth := by
  cases w <;> rfl
@[simp] theorem State.emitWrap_hdrHeight (w : Bool) : (s.emitWrap w).hdrHeight = s.hdrHeight := by
  cases w <;> rfl
@[simp] theorem State.emitWrap_prog (w : Bool) : (s.emitWrap w).prog = s.prog := by
  cases w <;> rfl
@[simp] theorem State.emitWrap_pixout (w : Bool) : (s.emitWrap w).pixout = s.pixout := by
  cases w <;> rfl
@[simp] theorem State.emitWrap_diagout (w : Bool) :
    (s.emitWrap w).diagout = s.diagout ++ (if w then [⟨.wrap, s.pc⟩] else []) := by
  cases w <;> simp [State.emitWrap]

/-! ### Register reads after an update -/

theorem State.int_setInt (k j : Fin 8) (v : U16) :
    (s.setInt k v).int j = if j = k then v else s.int j := by
  simp only [State.int, State.setInt, Fin.getElem_fin, Vector.getElem_set, Fin.ext_iff, eq_comm]

theorem State.flt_setFlt (k j : Fin 8) (v : F64) :
    (s.setFlt k v).flt j = if j = k then v else s.flt j := by
  simp only [State.flt, State.setFlt, Fin.getElem_fin, Vector.getElem_set, Fin.ext_iff, eq_comm]

@[simp] theorem State.int_setInt_self (k : Fin 8) (v : U16) : (s.setInt k v).int k = v := by
  simp [State.int_setInt]

@[simp] theorem State.flt_setFlt_self (k : Fin 8) (v : F64) : (s.setFlt k v).flt k = v := by
  simp [State.flt_setFlt]

/-- The banks do not alias (R26). -/
@[simp] theorem State.flt_setInt (k j : Fin 8) (v : U16) : (s.setInt k v).flt j = s.flt j := rfl

@[simp] theorem State.int_setFlt (k j : Fin 8) (v : F64) : (s.setFlt k v).int j = s.int j := rfl

@[simp] theorem State.int_advance (j : Fin 8) : (s.advance).int j = s.int j := rfl
@[simp] theorem State.flt_advance (j : Fin 8) : (s.advance).flt j = s.flt j := rfl
@[simp] theorem State.int_jump (a : Addr) (j : Fin 8) : (s.jump a).int j = s.int j := rfl
@[simp] theorem State.flt_jump (a : Addr) (j : Fin 8) : (s.jump a).flt j = s.flt j := rfl
@[simp] theorem State.int_raise (c : Cause) (j : Fin 8) : (s.raise c).int j = s.int j := rfl
@[simp] theorem State.flt_raise (c : Cause) (j : Fin 8) : (s.raise c).flt j = s.flt j := rfl
@[simp] theorem State.int_halt (j : Fin 8) : (s.halt).int j = s.int j := rfl
@[simp] theorem State.flt_halt (j : Fin 8) : (s.halt).flt j = s.flt j := rfl
@[simp] theorem State.int_emitPixel (x y : Coord) (j : Fin 8) : (s.emitPixel x y).int j = s.int j := rfl
@[simp] theorem State.flt_emitPixel (x y : Coord) (j : Fin 8) : (s.emitPixel x y).flt j = s.flt j := rfl
@[simp] theorem State.int_emitWrap (w : Bool) (j : Fin 8) : (s.emitWrap w).int j = s.int j := by
  cases w <;> rfl
@[simp] theorem State.flt_emitWrap (w : Bool) (j : Fin 8) : (s.emitWrap w).flt j = s.flt j := by
  cases w <;> rfl

/-! ### Views -/

theorem State.n_eq : s.n = s.prog.length := rfl

theorem State.fetch_eq : s.fetch = s.prog[s.pc]? := rfl

/-- Operands depend on the registers alone. -/
theorem State.valI_congr {s t : State} (hi : ∀ k, t.int k = s.int k) (hf : ∀ k, t.flt k = s.flt k)
    (v : Value) : t.valI v = s.valI v := by
  rcases v with n | (k | k) <;> simp [State.valI, hi, hf]

theorem State.valF_congr {s t : State} (hi : ∀ k, t.int k = s.int k) (hf : ∀ k, t.flt k = s.flt k)
    (v : Value) : t.valF v = s.valF v := by
  rcases v with n | (k | k) <;> simp [State.valF, hi, hf]

/-! ### Reset -/

@[simp] theorem State.int_reset (k : Fin 8) : State.reset.int k = 0 := by
  simp [State.int, State.reset]

@[simp] theorem State.flt_reset (k : Fin 8) : State.reset.flt k = 0 := by
  simp [State.flt, State.reset]

end Sys2Proof.Machine
end

