-- ==== Sys2Proof/Laws/Ops.lean ====
section
/-! SUPPORT. What each shared operation, each meaning and a step can do, said once: a later proof cites
these and unfolds none of them. -/

namespace Sys2Proof.Machine

variable {s t : State}

/-! ### The common shape of the arithmetic instructions (R160) -/

theorem arith_int (opi : U16 → U16 → U16 × Bool) (opf : F64 → F64 → F64) (k : Fin 8) (bi : U16)
    (bf : F64) : arith opi opf (.int k) bi bf s = .next (s.putInt k (opi (s.int k) bi)) := rfl

theorem arith_flt (opi : U16 → U16 → U16 × Bool) (opf : F64 → F64 → F64) (k : Fin 8) (bi : U16)
    (bf : F64) : arith opi opf (.flt k) bi bf s = .next (s.putFlt k (opf (s.flt k) bf)) := rfl

theorem sameRegsBut_setInt (k : Fin 8) (v : U16) : SameRegsBut [.int k] s (s.setInt k v) := by
  constructor
  · intro j hj
    simp only [List.mem_singleton, RegId.int.injEq] at hj
    simp [State.int_setInt, hj]
  · simp

theorem sameRegsBut_setFlt (k : Fin 8) (v : F64) : SameRegsBut [.flt k] s (s.setFlt k v) := by
  constructor
  · simp
  · intro j hj
    simp only [List.mem_singleton, RegId.flt.injEq] at hj
    simp [State.flt_setFlt, hj]

/-- Everything `putInt` does. -/
theorem putInt_spec (k : Fin 8) (r : U16 × Bool) :
    (s.putInt k r).int k = r.1 ∧
    (s.putInt k r).diagout = s.diagout ++ (if r.2 then [⟨.wrap, s.pc⟩] else []) ∧
    (s.putInt k r).pc = s.pc + 1 ∧ SameRegsBut [.int k] s (s.putInt k r) ∧
    SameBesidesRegs s (s.putInt k r) := by
  refine ⟨by simp [State.putInt], by simp [State.putInt], by simp [State.putInt], ?_, ?_⟩
  · obtain ⟨hi, -⟩ := sameRegsBut_setInt (s := s) k r.1
    exact ⟨fun j hj => by simpa [State.putInt] using hi j hj,
      fun j _ => by simp [State.putInt]⟩
  · simp [SameBesidesRegs, SameProgram, State.putInt]

/-- Everything `putFlt` does. -/
theorem putFlt_spec (k : Fin 8) (f : F64) : PutsFlt s (s.putFlt k f) k f := by
  refine ⟨by simp [State.putFlt], by simp [State.putFlt], by simp [State.putFlt], ?_, ?_⟩
  · obtain ⟨-, hf⟩ := sameRegsBut_setFlt (s := s) k f
    exact ⟨fun j _ => by simp [State.putFlt],
      fun j hj => by simpa [State.putFlt] using hf j hj⟩
  · simp [SameBesidesRegs, SameProgram, State.putFlt]

/-! ### The integer primitives against exact arithmetic (R130) -/

theorem iadd_exact (a b : U16) :
    ((iadd a b).1.toNat : Int) = ((a.toNat : Int) + b.toNat) % 65536 ∧
    ((iadd a b).2 = true ↔ ¬(0 ≤ (a.toNat : Int) + b.toNat ∧ (a.toNat : Int) + b.toNat < 65536)) := by
  simp only [iadd, BitVec.toNat_ofNat, decide_eq_true_eq]
  omega

theorem isub_exact (a b : U16) :
    ((isub a b).1.toNat : Int) = ((a.toNat : Int) - b.toNat) % 65536 ∧
    ((isub a b).2 = true ↔ ¬(0 ≤ (a.toNat : Int) - b.toNat ∧ (a.toNat : Int) - b.toNat < 65536)) := by
  have ha := a.isLt
  have hb := b.isLt
  simp only [isub, BitVec.toNat_ofInt, decide_eq_true_eq]
  omega

theorem imul_exact (a b : U16) :
    ((imul a b).1.toNat : Int) = ((a.toNat : Int) * b.toNat) % 65536 ∧
    ((imul a b).2 = true ↔ ¬(0 ≤ (a.toNat : Int) * b.toNat ∧ (a.toNat : Int) * b.toNat < 65536)) := by
  simp only [imul, BitVec.toNat_ofNat, decide_eq_true_eq, ← Int.natCast_mul]
  omega

theorem idiv_exact (a b : U16) :
    (idiv a b).1.toNat = a.toNat / b.toNat ∧ (idiv a b).2 = false := by
  refine ⟨?_, rfl⟩
  rw [idiv, BitVec.toNat_ofNat]
  exact Nat.mod_eq_of_lt (Nat.lt_of_le_of_lt (Nat.div_le_self _ _) a.isLt)

/-- An integer primitive that meets its exact result gives `PutsInt`. -/
theorem putInt_putsInt (k : Fin 8) (p : U16 × Bool) (r : Int)
    (h : (p.1.toNat : Int) = r % 65536 ∧ (p.2 = true ↔ ¬(0 ≤ r ∧ r < 65536))) :
    PutsInt s (s.putInt k p) k r := by
  obtain ⟨h1, h2, h3, h4, h5⟩ := putInt_spec (s := s) k p
  refine ⟨by rw [h1]; exact h.1, ?_, h3, h4, h5⟩
  rw [h2]
  by_cases hr : 0 ≤ r ∧ r < 65536
  · rw [if_pos hr, if_neg]
    exact fun hp => h.2.mp hp hr
  · rw [if_neg hr, if_pos (h.2.mpr hr)]

/-! ### `FWD` -/

/-- Everything `FWD` does (R151). -/
theorem fwd_spec :
    let t := s.moved.plot.advance
    t.flt xReg = fadd (s.flt xReg) (dir s.heading).1 ∧
    t.flt yReg = fadd (s.flt yReg) (dir s.heading).2 ∧
    t.pixout = s.pixout ++
      (if s.pen then [⟨f2p (t.flt xReg), f2p (t.flt yReg), Config.color⟩] else []) ∧
    t.diagout = s.diagout ∧ t.pc = s.pc + 1 ∧ t.pen = s.pen ∧ t.status = s.status ∧
    SameRegsBut [.flt xReg, .flt yReg] s t ∧ SameProgram s t := by
  have hx : s.moved.flt xReg = fadd (s.flt xReg) (dir s.heading).1 := by
    simp [State.moved, State.flt_setFlt, xReg, yReg]
  have hy : s.moved.flt yReg = fadd (s.flt yReg) (dir s.heading).2 := by
    simp [State.moved, xReg, yReg]
  have hi : ∀ j, s.moved.int j = s.int j := by simp [State.moved]
  have hf : ∀ j, RegId.flt j ∉ [RegId.flt xReg, RegId.flt yReg] → s.moved.flt j = s.flt j := by
    intro j hj
    simp only [List.mem_cons, RegId.flt.injEq, List.not_mem_nil, or_false, not_or] at hj
    simp [State.moved, State.flt_setFlt, hj]
  have hpen : s.moved.pen = s.pen := rfl
  cases hp : s.pen
  · rw [hp] at hpen
    have hm : s.moved.plot = s.moved := by rw [State.plot, if_neg (by rw [hpen]; decide)]
    rw [hm]
    refine ⟨hx, hy, ?_, rfl, rfl, hpen, rfl, ⟨fun j _ => hi j, hf⟩, rfl, rfl, rfl, rfl⟩
    rw [if_neg (by decide), List.append_nil]
    rfl
  · rw [hp] at hpen
    have hm : s.moved.plot = s.moved.emitPixel (f2p (s.moved.flt xReg)) (f2p (s.moved.flt yReg)) := by
      rw [State.plot, if_pos hpen]
    rw [hm]
    exact ⟨hx, hy, rfl, rfl, rfl, hpen, rfl, ⟨fun j _ => hi j, hf⟩, rfl, rfl, rfl, rfl⟩

/-! ### What an instruction can do -/

/-- Every instruction has a next state: no meaning stops (R273). -/
theorem exec_total (i : Instr) (s : State) : ∃ t, exec i s = .next t := by
  cases i with
  | sto rd v => cases rd <;> exact ⟨_, rfl⟩
  | inc rd => cases rd <;> exact ⟨_, rfl⟩
  | dec rd => cases rd <;> exact ⟨_, rfl⟩
  | add rd v => cases rd <;> exact ⟨_, rfl⟩
  | sub rd v => cases rd <;> exact ⟨_, rfl⟩
  | mul rd v => cases rd <;> exact ⟨_, rfl⟩
  | div rd v =>
    cases hz : s.divByZero rd v with
    | true => exact ⟨s.raise .divideByZero, by rw [exec, execDiv, if_pos hz]⟩
    | false =>
      rw [exec, execDiv, if_neg (by rw [hz]; decide)]
      cases rd <;> exact ⟨_, rfl⟩
  | drw => exact ⟨_, rfl⟩
  | fwd => exact ⟨_, rfl⟩
  | jnz rd a => exact ⟨_, rfl⟩
  | jeq rd v a => exact ⟨_, rfl⟩
  | jne rd v a => exact ⟨_, rfl⟩
  | jgt rd v a => exact ⟨_, rfl⟩
  | jlt rd v a => exact ⟨_, rfl⟩
  | hlt => exact ⟨_, rfl⟩

/-- The seven ways an instruction can change the state. -/
inductive Effect (i : Instr) (s : State) : State → Prop
  | toggle (h : i = .drw) : Effect i s { s with pen := !s.pen }.advance
  | move (h : i = .fwd) : Effect i s s.moved.plot.advance
  | putInt (k : Fin 8) (r : U16 × Bool) (hw : regsWritten i = [.int k]) (hj : i.target? = none)
      (hd : i ≠ .drw) (hh : i ≠ .hlt) : Effect i s (s.putInt k r)
  | putFlt (k : Fin 8) (f : F64) (hw : regsWritten i = [.flt k]) (hj : i.target? = none)
      (hd : i ≠ .drw) (hh : i ≠ .hlt) : Effect i s (s.putFlt k f)
  | branch (p : Bool) (a : Addr) (hj : i.target? = some a) (hw : regsWritten i = [])
      (hd : i ≠ .drw) (hh : i ≠ .hlt) : Effect i s (if p then s.jump a else s.advance)
  | fault (k : Fin 8) (v : Value) (h : i = .div (.int k) v) (hz : s.valI v = 0#16) :
      Effect i s (s.raise .divideByZero)
  | halt (h : i = .hlt) : Effect i s s.halt

/-- The inversion lemma of `exec`. -/
theorem exec_effect {i : Instr} (h : exec i s = .next t) : Effect i s t := by
  have put : ∀ (opi : U16 → U16 → U16 × Bool) (opf : F64 → F64 → F64) (rd : RegId) (bi : U16) (bf : F64),
      regsWritten i = [rd] → i.target? = none → i ≠ .drw → i ≠ .hlt →
      arith opi opf rd bi bf s = .next t → Effect i s t := by
    intro opi opf rd bi bf hw hj hd hh ha
    cases rd with
    | int k =>
      rw [arith_int, Host.Outcome.next.injEq] at ha
      exact ha ▸ .putInt k _ hw hj hd hh
    | flt k =>
      rw [arith_flt, Host.Outcome.next.injEq] at ha
      exact ha ▸ .putFlt k _ hw hj hd hh
  have jump : ∀ (p : Bool) (a : Addr), i.target? = some a → regsWritten i = [] → i ≠ .drw → i ≠ .hlt →
      condJump p a s = .next t → Effect i s t := by
    intro p a hj hw hd hh ha
    rw [condJump, Host.Outcome.next.injEq] at ha
    exact ha ▸ .branch p a hj hw hd hh
  cases i with
  | drw => cases h; exact .toggle rfl
  | fwd => cases h; exact .move rfl
  | hlt => cases h; exact .halt rfl
  | sto rd v =>
    rw [exec, execSto] at h
    exact put _ _ _ _ _ rfl rfl (by simp) (by simp) h
  | inc rd =>
    rw [exec, execInc] at h
    exact put _ _ _ _ _ rfl rfl (by simp) (by simp) h
  | dec rd =>
    rw [exec, execDec] at h
    exact put _ _ _ _ _ rfl rfl (by simp) (by simp) h
  | add rd v =>
    rw [exec, execAdd] at h
    exact put _ _ _ _ _ rfl rfl (by simp) (by simp) h
  | sub rd v =>
    rw [exec, execSub] at h
    exact put _ _ _ _ _ rfl rfl (by simp) (by simp) h
  | mul rd v =>
    rw [exec, execMul] at h
    exact put _ _ _ _ _ rfl rfl (by simp) (by simp) h
  | div rd v =>
    simp only [exec, execDiv] at h
    cases hz : s.divByZero rd v with
    | true =>
      rw [hz, if_pos rfl, Host.Outcome.next.injEq] at h
      cases rd with
      | int k => exact h ▸ .fault k v rfl (by simpa [State.divByZero] using hz)
      | flt k => simp [State.divByZero] at hz
    | false =>
      rw [hz, if_neg (by decide)] at h
      exact put _ _ _ _ _ rfl rfl (by simp) (by simp) h
  | jnz rd a =>
    rw [exec, execJnz] at h
    exact jump _ _ rfl rfl (by simp) (by simp) h
  | jeq rd v a =>
    rw [exec, execJeq] at h
    exact jump _ _ rfl rfl (by simp) (by simp) h
  | jne rd v a =>
    rw [exec, execJne] at h
    exact jump _ _ rfl rfl (by simp) (by simp) h
  | jgt rd v a =>
    rw [exec, execJgt] at h
    exact jump _ _ rfl rfl (by simp) (by simp) h
  | jlt rd v a =>
    rw [exec, execJlt] at h
    exact jump _ _ rfl rfl (by simp) (by simp) h

/-! ### What a step can do -/

theorem step_running {i : Instr} (hr : s.status = .running) (hf : s.fetch = some i) :
    step s = exec i s := by
  simp [step, State.preamble, hr, hf]

theorem step_pastEnd (hr : s.status = .running) (hf : s.fetch = none) :
    step s = .next (s.raise .pcOutOfRange) := by
  simp [step, State.preamble, hr, hf]

theorem step_halted (hr : s.status = .halted) : step s = .fault .runHalted := by
  simp [step, State.preamble, hr]

theorem step_faulted {c : Cause} {info : Nat} (hr : s.status = .faulted c info) :
    step s = .fault (.runFaulted c info) := by
  simp [step, State.preamble, hr]

/-- The inversion lemma of `step`. -/
theorem step_cases (h : step s = .next t) :
    s.status = .running ∧
    ((s.fetch = none ∧ t = s.raise .pcOutOfRange) ∨ ∃ i, s.fetch = some i ∧ exec i s = .next t) := by
  cases hs : s.status with
  | halted => rw [step_halted hs] at h; cases h
  | faulted c info => rw [step_faulted hs] at h; cases h
  | running =>
    refine ⟨rfl, ?_⟩
    cases hf : s.fetch with
    | none =>
      rw [step_pastEnd hs hf] at h
      cases h
      exact .inl ⟨rfl, rfl⟩
    | some i =>
      rw [step_running hs hf] at h
      exact .inr ⟨i, rfl, h⟩

theorem fetch_none_iff : s.fetch = none ↔ s.n ≤ s.pc := by
  simp [State.fetch, State.n]

end Sys2Proof.Machine
end

