-- ==== Sys2Proof/Laws/Effects.lean ====
section
/-! SUPPORT. What each kind of effect leaves alone, and induction along a run. -/

namespace Sys2Proof.Machine

variable {s t : State} {i : Instr}

theorem sameProgram_effect (h : Effect i s t) : SameProgram s t := by
  cases h with
  | toggle h => exact ⟨rfl, rfl, rfl, rfl⟩
  | move h => exact fwd_spec.2.2.2.2.2.2.2.2
  | putInt k r => exact (putInt_spec k r).2.2.2.2.1
  | putFlt k f => exact (putFlt_spec k f).2.2.2.2.1
  | branch p a => cases p <;> exact ⟨rfl, rfl, rfl, rfl⟩
  | fault k v h => exact ⟨rfl, rfl, rfl, rfl⟩
  | halt h => exact ⟨rfl, rfl, rfl, rfl⟩

theorem sameProgram_step (h : step s = .next t) : SameProgram s t := by
  obtain ⟨-, ⟨-, rfl⟩ | ⟨i, -, h⟩⟩ := step_cases h
  · exact ⟨rfl, rfl, rfl, rfl⟩
  · exact sameProgram_effect (exec_effect h)

/-- The pixel stream: one event exactly for a `FWD` with the pen down. -/
theorem pix_effect (h : Effect i s t) : (t.pixout = s.pixout ∧ ¬(i = .fwd ∧ s.pen = true)) ∨
    ∃ p, t.pixout = s.pixout ++ [p] ∧ p.colour = Config.color ∧ i = .fwd ∧ s.pen = true ∧
      t.diagout = s.diagout := by
  cases h with
  | toggle h => exact .inl ⟨rfl, by simp [h]⟩
  | move h =>
    have hs := fwd_spec (s := s)
    have h3 := hs.2.2.1
    cases hp : s.pen
    · rw [hp] at h3
      exact .inl ⟨by simpa using h3, by simp⟩
    · rw [hp] at h3
      exact .inr ⟨_, by simpa using h3, rfl, h, rfl, hs.2.2.2.1⟩
  | putInt k r hw =>
    exact .inl ⟨(putInt_spec k r).2.2.2.2.2.2.2, by rintro ⟨rfl, -⟩; simp [regsWritten] at hw⟩
  | putFlt k f hw =>
    exact .inl ⟨(putFlt_spec k f).2.2.2.2.2.2.2, by rintro ⟨rfl, -⟩; simp [regsWritten] at hw⟩
  | branch p a hj =>
    exact .inl ⟨by cases p <;> rfl, by rintro ⟨rfl, -⟩; simp [Instr.target?] at hj⟩
  | fault k v h => exact .inl ⟨rfl, by simp [h]⟩
  | halt h => exact .inl ⟨rfl, by simp [h]⟩

/-- The diagnostic stream: at most one event, at the `pc`, and then no pixel. -/
theorem diag_effect (h : Effect i s t) : t.diagout = s.diagout ∨
    (t.diagout = s.diagout ++ [⟨.wrap, s.pc⟩] ∧ t.pixout = s.pixout) := by
  cases h with
  | toggle h => exact .inl rfl
  | move h => exact .inl fwd_spec.2.2.2.1
  | putInt k r =>
    obtain ⟨-, h2, -, -, h5⟩ := putInt_spec (s := s) k r
    cases hr : r.2 <;> rw [hr] at h2
    · exact .inl (by simpa using h2)
    · exact .inr ⟨by simpa using h2, h5.2.2.2⟩
  | putFlt k f => exact .inl (putFlt_spec k f).2.1
  | branch p a => exact .inl (by cases p <;> rfl)
  | fault k v h => exact .inl rfl
  | halt h => exact .inl rfl

/-- The `pc` and the status: on, to a target, halted in place, or faulted in place. -/
theorem pc_effect (h : Effect i s t) : (t.pc = s.pc + 1 ∧ t.status = s.status) ∨
    (∃ a : Addr, i.target? = some a ∧ t.pc = a.toNat ∧ t.status = s.status) ∨
    (t = s.halt ∧ i = .hlt) ∨
    (t = s.raise .divideByZero ∧ ∃ k v, i = .div (.int k) v ∧ s.valI v = 0#16) := by
  cases h with
  | toggle h => exact .inl ⟨rfl, rfl⟩
  | move h => exact .inl ⟨fwd_spec.2.2.2.2.1, fwd_spec.2.2.2.2.2.2.1⟩
  | putInt k r => exact .inl ⟨(putInt_spec k r).2.2.1, (putInt_spec k r).2.2.2.2.2.2.1⟩
  | putFlt k r => exact .inl ⟨(putFlt_spec k r).2.2.1, (putFlt_spec k r).2.2.2.2.2.2.1⟩
  | branch p a hj =>
    cases p
    · exact .inl ⟨rfl, rfl⟩
    · exact .inr (.inl ⟨a, hj, rfl, rfl⟩)
  | fault k v h hz => exact .inr (.inr (.inr ⟨rfl, k, v, h, hz⟩))
  | halt h => exact .inr (.inr (.inl ⟨rfl, h⟩))

theorem regs_effect (h : Effect i s t) : SameRegsBut (regsWritten i) s t := by
  cases h with
  | toggle h => exact ⟨fun _ _ => rfl, fun _ _ => rfl⟩
  | move h => subst h; exact fwd_spec.2.2.2.2.2.2.2.1
  | putInt k r hw => rw [hw]; exact (putInt_spec k r).2.2.2.1
  | putFlt k r hw => rw [hw]; exact (putFlt_spec k r).2.2.2.1
  | branch p a => cases p <;> exact ⟨fun _ _ => rfl, fun _ _ => rfl⟩
  | fault k v h => exact ⟨fun _ _ => rfl, fun _ _ => rfl⟩
  | halt h => exact ⟨fun _ _ => rfl, fun _ _ => rfl⟩

/-- A reflexive and transitive relation that every step keeps holds along every run. -/
theorem run_induction {R : State → State → Prop} (hr : ∀ s, R s s)
    (ht : ∀ s t u, R s t → R t u → R s u) (hs : ∀ s t, step s = .next t → R s t) :
    ∀ n s t, core.run n s = .next t → R s t := by
  intro n
  induction n with
  | zero => intro s t h; cases h; exact hr _
  | succ n ih =>
    intro s t h
    have h' := h
    unfold Host.Core.run at h'
    rw [show core.step s = step s from rfl] at h'
    cases hst : step s with
    | next u => rw [hst] at h'; exact ht _ _ _ (hs _ _ hst) (ih _ _ h')
    | fault r => rw [hst] at h'; cases h'
    | refused r => rw [hst] at h'; cases h'

end Sys2Proof.Machine
end

