-- ==== Sys2Proof/Laws/Float.lean ====
section
/-! SUPPORT. Binary64: fields read back, magnitudes in order, and the one rounding is to nearest with ties
to even. Every operation's correctness rests on `ofBits_roundMag_correct`. -/

namespace Sys2Proof.Machine

/-! ### Fields -/

theorem infBits_lt : infBits < 2 ^ 63 := by decide

theorem magBits_lt (f : F64) : magBits f < 2 ^ 63 := Nat.mod_lt _ (by decide)

theorem isNeg_eq (f : F64) : isNeg f = decide (2 ^ 63 ≤ f.toNat) := by
  rw [isNeg, BitVec.msb_eq_decide]

theorem magBits_ofBits (neg : Bool) {b : Nat} (h : b < 2 ^ 63) : magBits (ofBits neg b) = b := by
  cases neg <;> simp only [magBits, ofBits, BitVec.toNat_ofNat] <;> norm_num <;> omega

theorem isNeg_ofBits (neg : Bool) {b : Nat} (h : b < 2 ^ 63) : isNeg (ofBits neg b) = neg := by
  rw [isNeg_eq]
  cases neg <;> simp only [ofBits, BitVec.toNat_ofNat] <;> norm_num <;> omega

/-- A datum is its sign and its magnitude bits. -/
theorem ofBits_fields (f : F64) : ofBits (isNeg f) (magBits f) = f := by
  have := f.isLt
  apply BitVec.eq_of_toNat_eq
  rw [isNeg_eq]
  by_cases h : 2 ^ 63 ≤ f.toNat <;> simp only [h, decide_true, decide_false, ofBits, magBits,
    BitVec.toNat_ofNat, if_true, Bool.false_eq_true, if_false] <;> omega

theorem isNaN_ofBits (neg : Bool) {b : Nat} (h : b ≤ infBits) : isNaN (ofBits neg b) = false := by
  rw [isNaN, magBits_ofBits neg (lt_of_le_of_lt h infBits_lt)]
  simpa using h

theorem valueOf_ofBits (neg : Bool) {b : Nat} (h : b < 2 ^ 63) :
    valueOf (ofBits neg b) = if neg then -(unitsOfBits b : Int) else (unitsOfBits b : Int) := by
  rw [valueOf, isNeg_ofBits neg h, magBits_ofBits neg h]

@[simp] theorem isNaN_nanResult (op : FOp) (a b : F64) : isNaN (nanResult op a b) = true := by
  unfold nanResult
  split
  · assumption
  · decide

theorem isFinite_or (f : F64) : isFinite f = true ∨ isInf f = true ∨ isNaN f = true := by
  simp only [isFinite, isInf, isNaN, decide_eq_true_eq, beq_iff_eq]
  omega

theorem magBits_fneg (a : F64) : magBits (fneg a) = magBits a := by
  simp only [magBits, fneg, BitVec.toNat_xor]
  rw [Nat.xor_mod_two_pow]
  simp

theorem isNeg_fneg (a : F64) : isNeg (fneg a) = !isNeg a := by
  rw [isNeg, fneg, BitVec.msb_xor, show (0x8000000000000000 : F64).msb = true by decide, Bool.xor_true,
    isNeg]

theorem magBits_fabs (a : F64) : magBits (fabs a) = magBits a := by
  simp only [magBits, fabs, BitVec.toNat_and]
  have h : (0x7FFFFFFFFFFFFFFF : F64).toNat = 2 ^ 63 - 1 := by decide
  rw [h, Nat.and_two_pow_sub_one_eq_mod, Nat.mod_mod]

theorem isNeg_fabs (a : F64) : isNeg (fabs a) = false := by
  rw [isNeg, fabs, BitVec.msb_and, show (0x7FFFFFFFFFFFFFFF : F64).msb = false by decide, Bool.and_false]

theorem valueOf_fneg (a : F64) : valueOf (fneg a) = -valueOf a := by
  rw [valueOf, valueOf, magBits_fneg, isNeg_fneg]
  cases isNeg a <;> simp

theorem valueOf_natAbs (a : F64) : (valueOf a).natAbs = unitsOfBits (magBits a) := by
  rw [valueOf]
  split <;> simp

theorem valueOf_fabs (a : F64) : valueOf (fabs a) = (valueOf a).natAbs := by
  rw [valueOf_natAbs, valueOf, magBits_fabs, isNeg_fabs]
  simp

theorem isNaN_fneg (a : F64) : isNaN (fneg a) = isNaN a := by simp [isNaN, magBits_fneg]

theorem isNaN_fabs (a : F64) : isNaN (fabs a) = isNaN a := by simp [isNaN, magBits_fabs]

theorem isInf_fneg (a : F64) : isInf (fneg a) = isInf a := by simp [isInf, magBits_fneg]

theorem isFinite_fneg (a : F64) : isFinite (fneg a) = isFinite a := by simp [isFinite, magBits_fneg]

theorem not_nan_of_finite {a : F64} (h : isFinite a = true) : isNaN a = false := by
  simp only [isFinite, isNaN, decide_eq_true_eq, decide_eq_false_iff_not] at *
  omega

theorem not_inf_of_finite {a : F64} (h : isFinite a = true) : isInf a = false := by
  simp only [isFinite, isInf, decide_eq_true_eq, beq_eq_false_iff_ne] at *
  omega

/-- An infinity is given by its sign. -/
theorem eq_infF {a : F64} (h : isInf a = true) : a = infF (isNeg a) := by
  rw [isInf, beq_iff_eq] at h
  rw [infF, ← h, ofBits_fields]

/-! ### Magnitudes in order -/

/-- The units of an exponent and a significand, the carried significand 2^53 included. -/
theorem unitsOfBits_split {e q : Nat} (hq : q ≤ 2 ^ 53) (he : e = 0 ∨ 2 ^ 52 ≤ q) :
    unitsOfBits (e * 2 ^ 52 + q) = q * 2 ^ e := by
  unfold unitsOfBits
  rcases Nat.lt_or_ge q (2 ^ 52) with h1 | h1
  · obtain rfl : e = 0 := by omega
    rw [if_pos (by omega)]
    simp
  · rcases Nat.lt_or_ge q (2 ^ 53) with h2 | h2
    · have hd : (e * 2 ^ 52 + q) / 2 ^ 52 = e + 1 := by omega
      have hm : (e * 2 ^ 52 + q) % 2 ^ 52 = q - 2 ^ 52 := by omega
      rw [hd, hm, if_neg (by omega), Nat.add_sub_cancel, Nat.add_sub_cancel' h1]
    · obtain rfl : q = 2 ^ 53 := by omega
      have hd : (e * 2 ^ 52 + 2 ^ 53) / 2 ^ 52 = e + 2 := by omega
      have hm : (e * 2 ^ 52 + 2 ^ 53) % 2 ^ 52 = 0 := by omega
      rw [hd, hm, if_neg (by omega), show e + 2 - 1 = e + 1 by omega, pow_succ 2 e]
      ring

theorem unitsOfBits_lt_succ (b : Nat) : unitsOfBits b < unitsOfBits (b + 1) := by
  obtain ⟨e, q, rfl, hq, he⟩ : ∃ e q, b = e * 2 ^ 52 + q ∧ q < 2 ^ 53 ∧ (e = 0 ∨ 2 ^ 52 ≤ q) := by
    rcases Nat.lt_or_ge b (2 ^ 53) with h | h
    · exact ⟨0, b, by omega, h, .inl rfl⟩
    · exact ⟨b / 2 ^ 52 - 1, b % 2 ^ 52 + 2 ^ 52, by omega, by omega, .inr (by omega)⟩
  rw [Nat.add_assoc, unitsOfBits_split (by omega) he, unitsOfBits_split (by omega) (by omega)]
  exact Nat.mul_lt_mul_of_pos_right (Nat.lt_succ_self q) (Nat.two_pow_pos e)

theorem unitsOfBits_strictMono : StrictMono unitsOfBits := strictMono_nat_of_lt_succ unitsOfBits_lt_succ

@[simp] theorem unitsOfBits_zero : unitsOfBits 0 = 0 := rfl

theorem unitsOfBits_eq_zero {b : Nat} : unitsOfBits b = 0 ↔ b = 0 :=
  ⟨fun h => unitsOfBits_strictMono.injective (h.trans unitsOfBits_zero.symm), fun h => h ▸ unitsOfBits_zero⟩

theorem unitsOfBits_bottom (k : Nat) : unitsOfBits ((k + 2) * 2 ^ 52 + 2 ^ 52) = 2 ^ 54 * 2 ^ k := by
  rw [unitsOfBits_split (by decide) (.inr (le_refl _)), pow_add]
  ring

theorem unitsOfBits_top (k : Nat) :
    unitsOfBits ((k + 1) * 2 ^ 52 + (2 ^ 53 - 1)) = (2 ^ 54 - 2) * 2 ^ k := by
  rw [unitsOfBits_split (by decide) (.inr (by decide)), pow_succ]
  ring

/-- The largest finite magnitude, the overflow threshold and the infinity's place, in half last places. -/
theorem overflow_scale : ∃ X, 0 < X ∧ unitsOfBits infBits = 2 ^ 54 * X ∧
    unitsOfBits (infBits - 1) = (2 ^ 54 - 2) * X ∧ overflowUnits = (2 ^ 54 - 1) * X := by
  have hb := unitsOfBits_bottom overflowExp
  have ht := unitsOfBits_top overflowExp
  rw [show (overflowExp + 2) * 2 ^ 52 + 2 ^ 52 = infBits by decide] at hb
  rw [show (overflowExp + 1) * 2 ^ 52 + (2 ^ 53 - 1) = infBits - 1 by decide] at ht
  exact ⟨2 ^ overflowExp, Nat.two_pow_pos _, hb, ht, by simp only [overflowUnits]⟩

/-! ### The rounding -/

/-- Distance of `b`'s magnitude from `n / d`, times `d`. -/
def offBy (n d b : Nat) : Nat := ((unitsOfBits b * d : Int) - n).natAbs

/-- `roundBits` takes one of the two neighbours of `n / d`, the nearer one, the even one on a tie. -/
theorem roundBits_between (n : Nat) {d : Nat} (hd : 0 < d) :
    ∃ b, unitsOfBits b * d ≤ n ∧ n < unitsOfBits (b + 1) * d ∧
      ((roundBits n d = b ∧ (2 * n < (unitsOfBits b + unitsOfBits (b + 1)) * d ∨
          (2 * n = (unitsOfBits b + unitsOfBits (b + 1)) * d ∧ b % 2 = 0))) ∨
       (roundBits n d = b + 1 ∧ ((unitsOfBits b + unitsOfBits (b + 1)) * d < 2 * n ∨
          (2 * n = (unitsOfBits b + unitsOfBits (b + 1)) * d ∧ (b + 1) % 2 = 0)))) := by
  set e := Nat.log2 (n / d) - 52 with he
  set q := n / (d * 2 ^ e) with hq
  have hw : 0 < d * 2 ^ e := Nat.mul_pos hd (Nat.two_pow_pos e)
  have hqd : q = n / d / 2 ^ e := by rw [hq, Nat.div_div_eq_div_mul]
  have hlt : n / d < 2 ^ (Nat.log2 (n / d) + 1) := Nat.lt_log2_self
  have hq53 : q < 2 ^ 53 := by
    rw [hqd, Nat.div_lt_iff_lt_mul (Nat.two_pow_pos e), ← pow_add]
    exact lt_of_lt_of_le hlt (Nat.pow_le_pow_right (by decide) (by omega))
  have hq52 : e = 0 ∨ 2 ^ 52 ≤ q := by
    rcases Nat.eq_zero_or_pos e with h | h
    · exact .inl h
    · right
      rw [hqd, Nat.le_div_iff_mul_le (Nat.two_pow_pos e), ← pow_add]
      have hne : n / d ≠ 0 := by
        intro h0
        rw [he, h0] at h
        simp at h
      exact le_trans (Nat.pow_le_pow_right (by decide) (by omega)) (Nat.log2_self_le hne)
  have u0 : unitsOfBits (e * 2 ^ 52 + q) = q * 2 ^ e := unitsOfBits_split hq53.le hq52
  have u1 : unitsOfBits (e * 2 ^ 52 + q + 1) = (q + 1) * 2 ^ e := by
    rw [Nat.add_assoc]
    exact unitsOfBits_split hq53 (hq52.imp id (fun h => by omega))
  have hn : d * 2 ^ e * q + n % (d * 2 ^ e) = n := Nat.div_add_mod n (d * 2 ^ e)
  have hr : n % (d * 2 ^ e) < d * 2 ^ e := Nat.mod_lt _ hw
  have hround : roundBits n d = e * 2 ^ 52 + (if d * 2 ^ e < 2 * (n % (d * 2 ^ e)) ∨
      (2 * (n % (d * 2 ^ e)) = d * 2 ^ e ∧ q % 2 = 1) then q + 1 else q) := rfl
  refine ⟨e * 2 ^ 52 + q, ?_⟩
  rw [u0, u1, hround]
  have e0 : q * 2 ^ e * d = d * 2 ^ e * q := by ring
  have e1 : (q + 1) * 2 ^ e * d = d * 2 ^ e * q + d * 2 ^ e := by ring
  have e2 : (q * 2 ^ e + (q + 1) * 2 ^ e) * d = 2 * (d * 2 ^ e * q) + d * 2 ^ e := by ring
  rw [e0, e1, e2]
  generalize d * 2 ^ e * q = x at *
  generalize n % (d * 2 ^ e) = r at *
  generalize d * 2 ^ e = w at *
  refine ⟨by omega, by omega, ?_⟩
  split
  · right; omega
  · left; omega

/-- `roundBits` is nearest, and even on a tie. -/
theorem roundBits_nearest (n : Nat) {d : Nat} (hd : 0 < d) (b : Nat) :
    offBy n d (roundBits n d) ≤ offBy n d b ∧
    (offBy n d (roundBits n d) = offBy n d b → b ≠ roundBits n d → roundBits n d % 2 = 0) := by
  obtain ⟨m, h0, h1, h⟩ := roundBits_between n hd
  have below : b ≤ m → unitsOfBits b * d ≤ unitsOfBits m * d := fun hb =>
    Nat.mul_le_mul_right d (unitsOfBits_strictMono.monotone hb)
  have above : m + 1 ≤ b → unitsOfBits (m + 1) * d ≤ unitsOfBits b * d := fun hb =>
    Nat.mul_le_mul_right d (unitsOfBits_strictMono.monotone hb)
  have strict : ∀ x y, x < y → unitsOfBits x * d < unitsOfBits y * d := fun x y hxy =>
    Nat.mul_lt_mul_of_pos_right (unitsOfBits_strictMono hxy) hd
  rw [Nat.add_mul] at h
  have off : ∀ x, offBy n d x = max (unitsOfBits x * d - n) (n - unitsOfBits x * d) := by
    intro x
    unfold offBy
    generalize unitsOfBits x = u
    rw [← Int.natCast_mul]
    omega
  rw [off, off]
  rcases Nat.lt_trichotomy b m with hb | rfl | hb
  · have := strict b m hb
    rcases h with ⟨hR, h⟩ | ⟨hR, h⟩ <;> rw [hR] <;> omega
  · rcases h with ⟨hR, h⟩ | ⟨hR, h⟩ <;> rw [hR] <;> omega
  · rcases Nat.eq_or_lt_of_le (Nat.succ_le_of_lt hb) with hb | hb
    · subst hb
      rcases h with ⟨hR, h⟩ | ⟨hR, h⟩ <;> rw [hR] <;> omega
    · have := strict (m + 1) b hb
      rcases h with ⟨hR, h⟩ | ⟨hR, h⟩ <;> rw [hR] <;> omega

/-- A magnitude that binary64 holds exactly is not changed. -/
theorem roundBits_units (b : Nat) {d : Nat} (hd : 0 < d) : roundBits (unitsOfBits b * d) d = b := by
  have h := (roundBits_nearest (unitsOfBits b * d) hd b).1
  have h0 : offBy (unitsOfBits b * d) d b = 0 := by simp [offBy]
  rw [h0, Nat.le_zero, offBy, Int.natAbs_eq_zero, sub_eq_zero, Int.natCast_mul] at h
  have hd' : (d : Int) ≠ 0 := by exact_mod_cast hd.ne'
  exact unitsOfBits_strictMono.injective (by exact_mod_cast mul_right_cancel₀ hd' h)

/-- A whole multiple of its last place is not changed. -/
theorem unitsOfBits_roundBits_mul (n k : Nat) (hn : n < 2 ^ 53) :
    unitsOfBits (roundBits (n * 2 ^ k) 1) = n * 2 ^ k := by
  obtain ⟨m, h0, h1, -⟩ := roundBits_between (n * 2 ^ k) (d := 1) one_pos
  rcases Nat.eq_zero_or_pos n with rfl | hpos
  · have h := roundBits_units 0 one_pos
    simp only [unitsOfBits_zero, Nat.zero_mul] at h ⊢
    rw [h, unitsOfBits_zero]
  · obtain ⟨b, hb⟩ : ∃ b, unitsOfBits b = n * 2 ^ k := by
      have hn0 : n ≠ 0 := hpos.ne'
      have hl : Nat.log2 n ≤ 52 := by
        have := (Nat.log2_lt hn0 (k := 53)).mpr hn
        omega
      set g := min k (52 - Nat.log2 n) with hg
      refine ⟨(k - g) * 2 ^ 52 + n * 2 ^ g, ?_⟩
      have hup : n * 2 ^ g < 2 ^ 53 := by
        calc n * 2 ^ g < 2 ^ (Nat.log2 n + 1) * 2 ^ g :=
              Nat.mul_lt_mul_of_pos_right Nat.lt_log2_self (Nat.two_pow_pos g)
          _ = 2 ^ (Nat.log2 n + 1 + g) := (pow_add 2 _ _).symm
          _ ≤ 2 ^ 53 := Nat.pow_le_pow_right (by decide) (by omega)
      have hlo : k - g = 0 ∨ 2 ^ 52 ≤ n * 2 ^ g := by
        rcases Nat.lt_or_ge (52 - Nat.log2 n) k with h | h
        · right
          have hgv : g = 52 - Nat.log2 n := by omega
          calc 2 ^ 52 = 2 ^ (Nat.log2 n) * 2 ^ g := by rw [← pow_add, hgv]; congr 1; omega
            _ ≤ n * 2 ^ g := Nat.mul_le_mul_right _ (Nat.log2_self_le hn0)
        · left; omega
      rw [unitsOfBits_split hup.le hlo, Nat.mul_assoc, ← pow_add]
      congr 2
      omega
    have h := roundBits_units b one_pos
    rw [Nat.mul_one, hb] at h
    rw [h, hb]

/-- Overflow: exactly from half a last place above the largest finite magnitude on. -/
theorem infBits_le_roundBits (n : Nat) {d : Nat} (hd : 0 < d) :
    infBits ≤ roundBits n d ↔ overflowUnits * d ≤ n := by
  obtain ⟨X, hX0, hi, hm, ho⟩ := overflow_scale
  have ni := roundBits_nearest n hd infBits
  have nm := roundBits_nearest n hd (infBits - 1)
  have off : ∀ x, offBy n d x = max (unitsOfBits x * d - n) (n - unitsOfBits x * d) := by
    intro x
    unfold offBy
    generalize unitsOfBits x = u
    rw [← Int.natCast_mul]
    omega
  rw [off, off] at ni nm
  have hodd : (infBits - 1) % 2 = 1 := by decide
  have hpos : 0 < infBits := by decide
  have upper : infBits ≤ roundBits n d → unitsOfBits infBits * d ≤ unitsOfBits (roundBits n d) * d :=
    fun h => Nat.mul_le_mul_right d (unitsOfBits_strictMono.monotone h)
  have lower : roundBits n d ≤ infBits - 1 →
      unitsOfBits (roundBits n d) * d ≤ unitsOfBits (infBits - 1) * d :=
    fun h => Nat.mul_le_mul_right d (unitsOfBits_strictMono.monotone h)
  have strict : roundBits n d < infBits - 1 →
      unitsOfBits (roundBits n d) * d < unitsOfBits (infBits - 1) * d :=
    fun h => Nat.mul_lt_mul_of_pos_right (unitsOfBits_strictMono h) hd
  have c1 : unitsOfBits infBits * d = 2 ^ 54 * (X * d) := by rw [hi, Nat.mul_assoc]
  have c2 : unitsOfBits (infBits - 1) * d = (2 ^ 54 - 2) * (X * d) := by rw [hm, Nat.mul_assoc]
  have c3 : overflowUnits * d = (2 ^ 54 - 1) * (X * d) := by rw [ho, Nat.mul_assoc]
  have hX : 0 < X * d := Nat.mul_pos hX0 hd
  rw [c1] at ni upper
  rw [c2] at nm lower strict
  rw [c3]
  generalize X * d = Y at *
  generalize unitsOfBits (roundBits n d) * d = V at *
  generalize roundBits n d = R at *
  generalize infBits = I at *
  omega

/-! ### Correct rounding -/

theorem roundMag_le (n d : Nat) : roundMag n d ≤ infBits := Nat.min_le_right _ _

theorem roundMag_lt (n d : Nat) : roundMag n d < 2 ^ 63 := lt_of_le_of_lt (roundMag_le n d) infBits_lt

theorem roundMag_of_finite {n d : Nat} (h : roundMag n d < infBits) : roundMag n d = roundBits n d := by
  unfold roundMag at *
  omega

/-- Everything the rounding promises, sign included. -/
theorem ofBits_roundMag_correct (neg : Bool) (n : Nat) {d : Nat} (hd : 0 < d) :
    CorrectlyRounded (if neg then -(n : Int) else n) d (ofBits neg (roundMag n d)) := by
  have hlt := roundMag_lt n d
  have hmag := magBits_ofBits neg hlt
  have hval := valueOf_ofBits neg hlt
  have hneg := isNeg_ofBits neg hlt
  -- distances to the signed target are distances of magnitudes, or larger
  have hR : isFinite (ofBits neg (roundMag n d)) = true → roundMag n d = roundBits n d := by
    intro h
    rw [isFinite, hmag, decide_eq_true_eq] at h
    exact roundMag_of_finite h
  have offR : (valueOf (ofBits neg (roundMag n d)) * d - (if neg then -(n : Int) else n)).natAbs =
      offBy n d (roundMag n d) := by
    rw [hval, offBy]
    cases neg
    · simp
    · simp only [if_true]
      rw [← Int.natAbs_neg]
      congr 1
      ring
  have offC : ∀ c, offBy n d (if isNeg c = neg then magBits c else 0) ≤
      (valueOf c * d - (if neg then -(n : Int) else n)).natAbs ∧
      (offBy n d (if isNeg c = neg then magBits c else 0) =
        (valueOf c * d - (if neg then -(n : Int) else n)).natAbs →
        (if isNeg c = neg then magBits c else 0) = roundBits n d → valueOf c =
          valueOf (ofBits neg (roundBits n d)) ∨ infBits < roundBits n d) := by
    intro c
    by_cases hc : isNeg c = neg
    · rw [if_pos hc]
      have : (valueOf c * d - (if neg then -(n : Int) else n)).natAbs = offBy n d (magBits c) := by
        rw [valueOf, hc, offBy]
        cases neg
        · simp
        · simp only [if_true]
          rw [← Int.natAbs_neg]
          congr 1
          ring
      refine ⟨this ▸ le_refl _, fun _ hm => .inl ?_⟩
      rw [← hm, ← hc, ofBits_fields]
    · rw [if_neg hc]
      have hz : offBy n d 0 = n := by simp [offBy]
      have hv : (valueOf c * d - (if neg then -(n : Int) else n)).natAbs =
          unitsOfBits (magBits c) * d + n := by
        rw [valueOf]
        have hc' : isNeg c = !neg := by cases neg <;> simpa using hc
        rw [hc', ← Int.natCast_inj]
        generalize unitsOfBits (magBits c) = u
        cases neg
        · simp only [Bool.not_false, if_true, Bool.false_eq_true, if_false]
          rw [show (-(u : Int) * d - n) = -((u * d + n : Nat) : Int) by push_cast; ring,
            Int.natAbs_neg, Int.natAbs_natCast]
        · simp only [Bool.not_true, if_true, Bool.false_eq_true, if_false]
          rw [show ((u : Int) * d - -n) = ((u * d + n : Nat) : Int) by push_cast; ring,
            Int.natAbs_natCast]
      refine ⟨by rw [hz, hv]; omega, fun heq hm => .inl ?_⟩
      rw [hz, hv] at heq
      have hu : unitsOfBits (magBits c) = 0 := by
        have : unitsOfBits (magBits c) * d = 0 := by omega
        exact (Nat.mul_eq_zero.mp this).resolve_right hd.ne'
      rw [← hm, valueOf_ofBits neg (by decide), valueOf, hu]
      cases neg <;> simp
  refine ⟨isNaN_ofBits neg (roundMag_le n d), ?_, ?_, ?_, ?_, ?_⟩
  · have : (if neg then -(n : Int) else n).natAbs = n := by cases neg <;> simp
    rw [this, ← infBits_le_roundBits n hd, isInf, hmag, beq_iff_eq, roundMag, min_eq_right_iff]
  · intro hf c _
    rw [offR, hR hf]
    exact le_trans (roundBits_nearest n hd _).1 (offC c).1
  · intro hf c _ hne heq
    rw [offR, hR hf] at heq
    rw [hmag, hR hf]
    obtain ⟨h1, h2⟩ := roundBits_nearest n hd (if isNeg c = neg then magBits c else 0)
    obtain ⟨h3, h4⟩ := offC c
    have h13 := le_trans h1 h3
    have heq1 : offBy n d (roundBits n d) = offBy n d (if isNeg c = neg then magBits c else 0) := by
      omega
    refine h2 heq1 (fun hb => ?_)
    rcases h4 (by omega) hb with h5 | h5
    · rw [← hR hf] at h5
      exact hne h5
    · have := roundMag_le n d
      rw [hR hf] at this
      omega
  · intro h
    rw [hneg]
    cases neg
    · simp only [Bool.false_eq_true, if_false] at h; omega
    · rfl
  · intro h
    rw [hneg]
    cases neg
    · rfl
    · simp only [if_true] at h; omega

end Sys2Proof.Machine
end

