-- ==== Sys2Proof/Laws/FloatOps.lean ====
section
/-! SUPPORT. What each binary64 operation answers on finite data, on infinities and on NaNs, and the bounds
of `EPS`: a later proof cites these and unfolds no operation. -/

namespace Sys2Proof.Machine

/-! ### Classes -/

theorem not_finite_of_nan {a : F64} (h : isNaN a = true) : isFinite a = false := by
  simp only [isFinite, isNaN, decide_eq_true_eq, decide_eq_false_iff_not] at *
  omega

theorem not_finite_of_inf {a : F64} (h : isInf a = true) : isFinite a = false := by
  simp only [isFinite, isInf, decide_eq_false_iff_not, beq_iff_eq] at *
  omega

theorem not_nan_of_inf {a : F64} (h : isInf a = true) : isNaN a = false := by
  simp only [isNaN, isInf, decide_eq_false_iff_not, beq_iff_eq] at *
  omega

theorem not_zero_of_inf {a : F64} (h : isInf a = true) : isZero a = false := by
  simp only [isInf, isZero, beq_iff_eq, beq_eq_false_iff_ne] at *
  rw [h]
  decide

theorem finite_of_zero {a : F64} (h : isZero a = true) : isFinite a = true := by
  simp only [isFinite, isZero, decide_eq_true_eq, beq_iff_eq] at *
  rw [h]
  decide

theorem isZero_iff_valueOf (a : F64) : isZero a = true ↔ valueOf a = 0 := by
  rw [isZero, beq_iff_eq, ← Int.natAbs_eq_zero, valueOf_natAbs, unitsOfBits_eq_zero]

theorem isFinite_ofBits (neg : Bool) {b : Nat} (h : b < infBits) : isFinite (ofBits neg b) = true := by
  rw [isFinite, magBits_ofBits neg (lt_trans h infBits_lt)]
  simpa using h

/-! ### Rounding exact magnitudes -/

@[simp] theorem roundBits_zero {d : Nat} (hd : 0 < d) : roundBits 0 d = 0 := by
  simpa using roundBits_units 0 hd

@[simp] theorem roundMag_zero {d : Nat} (hd : 0 < d) : roundMag 0 d = 0 := by
  rw [roundMag, roundBits_zero hd]
  exact Nat.zero_min _

/-- A magnitude of at least one unit never rounds to zero. -/
theorem roundMag_eq_zero {n : Nat} : roundMag n 1 = 0 ↔ n = 0 := by
  constructor
  · intro h
    have hr : roundBits n 1 = 0 := by
      rw [← roundMag_of_finite (by rw [h]; decide), h]
    obtain ⟨b, h0, h1, hb⟩ := roundBits_between n one_pos
    obtain rfl : b = 0 := by omega
    have : unitsOfBits 1 = 1 := rfl
    rw [Nat.zero_add, this] at h1
    omega
  · rintro rfl
    exact roundMag_zero one_pos

theorem roundMag_units {b : Nat} (h : b < infBits) : roundMag (unitsOfBits b) 1 = b := by
  have := roundBits_units b one_pos
  rw [Nat.mul_one] at this
  rw [roundMag, this]
  exact Nat.min_eq_left h.le

theorem unitsPerOne_eq : unitsPerOne = 2 ^ unitExp := rfl

theorem unitsPerOne_pos : 0 < unitsPerOne := Nat.two_pow_pos unitExp

/-- Whole numbers of at most 53 bits are binary64 numbers. -/
theorem roundMag_whole {n : Nat} (h : n < 2 ^ 53) :
    roundMag (n * unitsPerOne) 1 < infBits ∧
    unitsOfBits (roundMag (n * unitsPerOne) 1) = n * unitsPerOne := by
  rw [unitsPerOne_eq]
  have hu : unitsOfBits (roundBits (n * 2 ^ unitExp) 1) = n * 2 ^ unitExp :=
    unitsOfBits_roundBits_mul n unitExp h
  have hlt : roundBits (n * 2 ^ unitExp) 1 < infBits := by
    rw [← unitsOfBits_strictMono.lt_iff_lt, hu,
      show infBits = (overflowExp + 2) * 2 ^ 52 + 2 ^ 52 by decide, unitsOfBits_bottom]
    refine Nat.mul_lt_mul_of_lt_of_le (lt_trans h (by decide)) ?_ (Nat.two_pow_pos _)
    exact Nat.pow_le_pow_right (by decide) (by decide +kernel)
  have hr : roundMag (n * 2 ^ unitExp) 1 = roundBits (n * 2 ^ unitExp) 1 := Nat.min_eq_left hlt.le
  rw [hr]
  exact ⟨hlt, hu⟩

/-- Rounding does not go below 1.0 from a magnitude of at least 1.0. -/
theorem one_le_roundMag {n : Nat} (h : unitsPerOne ≤ n) :
    unitsPerOne ≤ unitsOfBits (roundMag n 1) := by
  have hw := roundMag_whole (n := 1) (by decide)
  rw [Nat.one_mul] at hw
  rcases Nat.lt_or_ge (roundMag n 1) infBits with hf | hf
  · have hn := (roundBits_nearest n one_pos (roundMag unitsPerOne 1)).1
    rw [roundMag_of_finite hf]
    simp only [offBy, hw.2] at hn
    generalize unitsOfBits (roundBits n 1) = u at *
    generalize unitsPerOne = o at *
    omega
  · have hi := unitsOfBits_strictMono hw.1
    rw [hw.2] at hi
    exact le_trans hi.le (unitsOfBits_strictMono.monotone hf)

/-! ### Sums -/

theorem sumWith_finite (nan : F64) {a b : F64} (ha : isFinite a = true) (hb : isFinite b = true) :
    sumWith nan a b = ofBits (if valueOf a + valueOf b = 0 then isNeg a && isNeg b
      else decide (valueOf a + valueOf b < 0)) (roundMag (valueOf a + valueOf b).natAbs 1) := by
  simp only [sumWith, not_nan_of_finite ha, not_nan_of_finite hb, not_inf_of_finite ha,
    not_inf_of_finite hb, Bool.or_self, Bool.false_eq_true, if_false]
  split
  · rename_i h
    rw [h, Int.natAbs_zero, roundMag_zero one_pos, zeroF]
  · rfl

theorem fadd_finite {a b : F64} (ha : isFinite a = true) (hb : isFinite b = true) :
    fadd a b = ofBits (if valueOf a + valueOf b = 0 then isNeg a && isNeg b
      else decide (valueOf a + valueOf b < 0)) (roundMag (valueOf a + valueOf b).natAbs 1) :=
  sumWith_finite _ ha hb

theorem fsub_finite {a b : F64} (ha : isFinite a = true) (hb : isFinite b = true) :
    fsub a b = ofBits (if valueOf a - valueOf b = 0 then isNeg a && !isNeg b
      else decide (valueOf a - valueOf b < 0)) (roundMag (valueOf a - valueOf b).natAbs 1) := by
  rw [fsub, sumWith_finite _ ha ((isFinite_fneg b).trans hb), valueOf_fneg, isNeg_fneg, ← sub_eq_add_neg]

/-- A sum with a NaN operand is the NaN handed over. -/
theorem sumWith_nan (nan : F64) {a b : F64} (h : isNaN a = true ∨ isNaN b = true) :
    sumWith nan a b = nan := by
  rw [sumWith, if_pos (by simpa using h)]

/-- Infinities of opposite signs have no sum. -/
theorem sumWith_opposite_infs (nan : F64) {a b : F64} (ha : isInf a = true) (hb : isInf b = true)
    (h : isNeg a ≠ isNeg b) : sumWith nan a b = nan := by
  simp [sumWith, not_nan_of_inf ha, not_nan_of_inf hb, ha, hb, h]

/-- Every other sum with an infinity is that infinity. -/
theorem sumWith_inf_left (nan : F64) {a b : F64} (ha : isInf a = true) (hb : isNaN b = false)
    (h : isInf b = true → isNeg a = isNeg b) : sumWith nan a b = a := by
  cases hi : isInf b with
  | true => simp [sumWith, not_nan_of_inf ha, hb, ha, hi, h hi]
  | false => simp [sumWith, not_nan_of_inf ha, hb, ha, hi]

theorem sumWith_inf_right (nan : F64) {a b : F64} (ha : isFinite a = true) (hb : isInf b = true) :
    sumWith nan a b = b := by
  simp [sumWith, not_nan_of_finite ha, not_inf_of_finite ha, not_nan_of_inf hb, hb]

/-- A difference with an infinity, none of the two cancelling the other. -/
theorem fsub_inf {a b : F64} (ha : isInf a = true) (hb : isNaN b = false)
    (h : isInf b = true → isNeg a ≠ isNeg b) : fsub a b = a ∧ fsub b a = infF (!isNeg a) := by
  have hna : isInf (fneg a) = true := (isInf_fneg a).trans ha
  have hnb : isNaN (fneg b) = false := (isNaN_fneg b).trans hb
  constructor
  · refine sumWith_inf_left _ ha hnb fun hi => ?_
    rw [isInf_fneg] at hi
    rw [isNeg_fneg]
    exact Bool.eq_not.mpr (h hi)
  · rw [← isNeg_fneg, ← eq_infF hna, fsub]
    rcases isFinite_or b with hf | hi | hn
    · exact sumWith_inf_right _ hf hna
    · have he : isNeg b = isNeg (fneg a) := by
        rw [isNeg_fneg]
        exact Bool.eq_not.mpr (h hi).symm
      rw [sumWith_inf_left _ hi (not_nan_of_inf hna) fun _ => he, eq_infF hi, he, ← eq_infF hna]
    · rw [hb] at hn
      cases hn

/-! ### Products and quotients -/

theorem fmul_finite {a b : F64} (ha : isFinite a = true) (hb : isFinite b = true) :
    fmul a b = ofBits (isNeg a != isNeg b)
      (roundMag (unitsOfBits (magBits a) * unitsOfBits (magBits b)) unitsPerOne) := by
  simp [fmul, not_nan_of_finite ha, not_nan_of_finite hb, not_inf_of_finite ha, not_inf_of_finite hb]

theorem fdiv_finite {a b : F64} (ha : isFinite a = true) (hb : isFinite b = true)
    (hz : isZero b = false) : fdiv a b = ofBits (isNeg a != isNeg b)
      (roundMag (unitsOfBits (magBits a) * unitsPerOne) (unitsOfBits (magBits b))) := by
  simp [fdiv, not_nan_of_finite ha, not_nan_of_finite hb, not_inf_of_finite ha, not_inf_of_finite hb, hz]

/-! ### Integers as floats (R127) -/

theorem magBits_u2f (n : U16) : magBits (u2f n) = roundMag (n.toNat * unitsPerOne) 1 :=
  magBits_ofBits false (roundMag_lt _ _)

theorem u2f_finite (n : U16) : isFinite (u2f n) = true :=
  isFinite_ofBits false (roundMag_whole (lt_trans n.isLt (by decide))).1

theorem isNeg_u2f (n : U16) : isNeg (u2f n) = false := isNeg_ofBits false (roundMag_lt _ _)

theorem valueOf_u2f (n : U16) : valueOf (u2f n) = n.toNat * unitsPerOne := by
  rw [u2f, valueOf_ofBits false (roundMag_lt _ _), (roundMag_whole (lt_trans n.isLt (by decide))).2,
    if_neg (by decide), Int.natCast_mul]

theorem u2f_one : u2f 1 = oneF := by decide +kernel

theorem u2f_zero : u2f 0 = zeroF false := by decide +kernel

theorem valueOf_oneF : valueOf oneF = unitsPerOne := by
  rw [← u2f_one, valueOf_u2f, show (1 : U16).toNat = 1 by decide, Int.natCast_one, one_mul]

theorem valueOf_zeroF (neg : Bool) : valueOf (zeroF neg) = 0 := by
  cases neg <;> decide

/-! ### `EPS` (R8, R191) -/

/-- `0 < EPS < 1` (U3). -/
theorem eps_bounds : flt 0 eps = true ∧ flt eps oneF = true := by
  unfold eps
  split
  · rename_i h
    exact Bool.and_eq_true_iff.mp h
  · decide +kernel

theorem eps_notNaN : isNaN eps = false := by
  have h := eps_bounds.1
  simp only [flt, Bool.and_eq_true, Bool.not_eq_true'] at h
  exact h.1.2

theorem eps_pos : 0 < valueOf eps := by
  have h := eps_bounds.1
  simp only [flt, Bool.and_eq_true, decide_eq_true_eq] at h
  exact h.2

theorem eps_lt_one : valueOf eps < (unitsPerOne : Int) := by
  have h := eps_bounds.2
  simp only [flt, Bool.and_eq_true, decide_eq_true_eq, valueOf_oneF] at h
  exact h.2

theorem isNeg_of_pos {a : F64} (h : 0 < valueOf a) : isNeg a = false := by
  cases hn : isNeg a with
  | false => rfl
  | true =>
    rw [valueOf, hn, if_pos rfl] at h
    omega

/-- Two data of positive value are the same datum when their values are. -/
theorem eq_of_valueOf {a b : F64} (ha : isNeg a = false) (hb : isNeg b = false)
    (h : valueOf a = valueOf b) : a = b := by
  have hm : magBits a = magBits b := by
    simp only [valueOf, ha, hb, Bool.false_eq_true, if_false, Nat.cast_inj] at h
    exact unitsOfBits_strictMono.injective h
  rw [← ofBits_fields a, ← ofBits_fields b, ha, hb, hm]

/-! ### Comparisons (R131) -/

theorem flt_nan {a b : F64} (h : isNaN a = true ∨ isNaN b = true) : flt a b = false := by
  rcases h with h | h <;> simp [flt, h]

theorem fgt_nan {a b : F64} (h : isNaN a = true ∨ isNaN b = true) : fgt a b = false := by
  rcases h with h | h <;> simp [fgt, h]

theorem flt_iff {a b : F64} (ha : isNaN a = false) (hb : isNaN b = false) :
    flt a b = true ↔ valueOf a < valueOf b := by
  simp [flt, ha, hb]

theorem fgt_iff {a b : F64} (ha : isNaN a = false) (hb : isNaN b = false) :
    fgt a b = true ↔ valueOf b < valueOf a := by
  simp [fgt, ha, hb]

theorem valueOf_infF (neg : Bool) :
    valueOf (infF neg) = if neg then -(unitsOfBits infBits : Int) else (unitsOfBits infBits : Int) :=
  valueOf_ofBits neg infBits_lt

/-- An infinity is beyond every finite number. -/
theorem valueOf_finite_lt {a : F64} (h : isFinite a = true) :
    (valueOf a).natAbs < unitsOfBits infBits := by
  rw [valueOf_natAbs]
  rw [isFinite, decide_eq_true_eq] at h
  exact unitsOfBits_strictMono h

/-! ### The distance of the tolerant jumps -/

theorem valueOf_fdist {a b : F64} (ha : isFinite a = true) (hb : isFinite b = true) :
    valueOf (fdist a b) = unitsOfBits (roundMag (valueOf a - valueOf b).natAbs 1) := by
  rw [fdist, valueOf_fabs, fsub_finite ha hb, valueOf_natAbs, magBits_ofBits _ (roundMag_lt _ _)]

theorem fdist_finite_notNaN {a b : F64} (ha : isFinite a = true) (hb : isFinite b = true) :
    isNaN (fdist a b) = false := by
  rw [fdist, isNaN_fabs, fsub_finite ha hb, isNaN_ofBits _ (roundMag_le _ _)]

/-- The distance of an infinity to any other number is infinite. -/
theorem fdist_inf {a b : F64} (ha : isNaN a = false) (hb : isNaN b = false)
    (hi : isInf a = true ∨ isInf b = true) (hne : a ≠ b) : fdist a b = infF false := by
  have habs : ∀ neg, fabs (infF neg) = infF false := by decide
  have hs : isInf a = true → isInf b = true → isNeg a ≠ isNeg b := fun h1 h2 h =>
    hne (by rw [eq_infF h1, eq_infF h2, h])
  rw [fdist]
  rcases hi with h | h
  · rw [(fsub_inf h hb (hs h)).1, eq_infF h, habs]
  · rw [(fsub_inf h ha fun h' => (hs h' h).symm).2, habs]

theorem fdist_nan {a b : F64} (h : isNaN a = true ∨ isNaN b = true) : isNaN (fdist a b) = true := by
  rw [fdist, isNaN_fabs, fsub, sumWith_nan _ (by rwa [isNaN_fneg])]
  exact isNaN_nanResult _ _ _

end Sys2Proof.Machine
end

