-- ==== Sys2Proof/Laws/Load.lean ====
section
/-! SUPPORT. What the decoder of each format does with its bytes, and what a load that succeeds has done. -/

namespace Sys2Proof

/-! ### One instruction -/

/-- The decoder at a byte whose opcode is defined: presence, then the operands. -/
theorem decodeOne_eq {c : Nat} {b : Byte} {rest : List Byte} {m : Mnemonic} (h : opcField b = m.opc) :
    decodeOne c (b :: rest) =
      if (b :: rest).length < instrLen m.format (vregField b) then .error (.truncated c)
      else (decodeOperands m c (b :: rest)).map (fun i => (instrLen m.format (vregField b), i)) := by
  have h0 : byteAt (b :: rest) 0 = b := rfl
  simp only [decodeOne, h0, h, mnemonicOf_opc]

theorem map_eq_ok {α β ε : Type} {x : Except ε α} {f : α → β} {y : β} (h : x.map f = .ok y) :
    ∃ a, x = .ok a ∧ f a = y := by
  cases x with
  | error e => cases h
  | ok a => cases h; exact ⟨a, rfl, rfl⟩

/-- The inversion lemma of `decodeOne`. -/
theorem decodeOne_ok {c n : Nat} {i : Instr} {bs : List Byte} (h : decodeOne c bs = .ok (n, i)) :
    ∃ m, m.opc = opcField (byteAt bs 0) ∧ n = instrLen m.format (vregField (byteAt bs 0)) ∧
      n ≤ bs.length ∧ decodeOperands m c bs = .ok i := by
  unfold decodeOne at h
  simp only at h
  split at h
  · cases h
  · rename_i m hm
    split at h
    · cases h
    · obtain ⟨j, hj, he⟩ := map_eq_ok h
      cases he
      exact ⟨m, opc_of_mnemonicOf hm, rfl, by omega, hj⟩

/-- The inversion lemma of `decodeRV`. -/
theorem decodeRV_ok {c : Nat} {bs : List Byte} {mk : RegId → Value → Instr} {i : Instr}
    (h : decodeRV c bs mk = .ok i) : ∃ rd v, i = mk rd v ∧ byteOfReg rd = byteAt bs 1 ∧
      v.isReg = vregField (byteAt bs 0) ∧
      encodeValue v = (List.range (valueLen .RV v.isReg)).map (fun k => byteAt bs (2 + k)) := by
  unfold decodeRV at h
  split at h
  · cases h
  · rename_i rd hr
    obtain ⟨v, hv, rfl⟩ := map_eq_ok h
    refine ⟨rd, v, rfl, decodeReg_ok hr, ?_⟩
    cases hg : vregField (byteAt bs 0) with
    | true =>
      rw [hg] at hv
      obtain ⟨r, hr2, rfl⟩ := map_eq_ok hv
      have := decodeReg_ok hr2
      exact ⟨rfl, by simp [encodeValue, this, Value.isReg, valueLen, List.range, List.range.loop]⟩
    | false =>
      rw [hg] at hv
      cases hv
      exact ⟨rfl, by
        simp [encodeValue, le16, le16Bytes_append, Value.isReg, valueLen, List.range, List.range.loop]⟩

/-! ### Bytes that follow do not matter -/

theorem byteAt_append (bs rest : List Byte) {k : Nat} (h : k < bs.length) :
    byteAt (bs ++ rest) k = byteAt bs k := by
  simp [byteAt, List.getD, List.getElem?_append_left h]

theorem le16_append (bs rest : List Byte) {k : Nat} (h : k + 1 < bs.length) :
    le16 (bs ++ rest) k = le16 bs k := by
  rw [le16, le16, byteAt_append bs rest h, byteAt_append bs rest (by omega)]

theorem decodeRV_append (c : Nat) (bs rest : List Byte) (mk : RegId → Value → Instr)
    (h : 2 + valueLen .RV (vregField (byteAt bs 0)) ≤ bs.length) :
    decodeRV c (bs ++ rest) mk = decodeRV c bs mk := by
  rw [decodeRV, decodeRV, byteAt_append bs rest (by omega), byteAt_append bs rest (by omega)]
  cases hv : vregField (byteAt bs 0) with
  | true =>
    rw [hv, valueLen, if_pos rfl] at h
    simp only [decodeValue]
    rw [byteAt_append bs rest (by omega)]
  | false =>
    rw [hv, valueLen, if_neg (by decide)] at h
    simp only [decodeValue]
    rw [le16_append bs rest (by omega)]

theorem decodeRVA_append (c : Nat) (bs rest : List Byte) (mk : RegId → Value → Addr → Instr)
    (h : 2 + valueLen .RVA (vregField (byteAt bs 0)) + 2 ≤ bs.length) :
    decodeRVA c (bs ++ rest) mk = decodeRVA c bs mk := by
  have he : valueLen .RVA (vregField (byteAt bs 0)) = valueLen .RV (vregField (byteAt bs 0)) := rfl
  simp only [decodeRVA]
  rw [decodeRV_append c bs rest _ (by omega), byteAt_append bs rest (by omega),
    le16_append bs rest (by omega)]

theorem decodeOperands_append (m : Mnemonic) (c : Nat) (bs rest : List Byte)
    (h : instrLen m.format (vregField (byteAt bs 0)) ≤ bs.length) :
    decodeOperands m c (bs ++ rest) = decodeOperands m c bs := by
  cases m <;> simp only [Mnemonic.format, instrLen] at h <;> simp only [decodeOperands] <;>
    first
    | exact decodeRV_append c bs rest _ h
    | exact decodeRVA_append c bs rest _ h
    | rw [decodeR, decodeR, byteAt_append bs rest (by omega)]
    | rw [decodeRA, decodeRA, byteAt_append bs rest (by omega), le16_append bs rest (by omega)]

/-- An instruction that decodes decodes alike whatever bytes follow. -/
theorem decodeOne_append {c n : Nat} {i : Instr} {bs : List Byte} (rest : List Byte)
    (h : decodeOne c bs = .ok (n, i)) : decodeOne c (bs ++ rest) = .ok (n, i) := by
  obtain ⟨m, ho, rfl, hl, hd⟩ := decodeOne_ok h
  have h0 : 0 < bs.length := Nat.lt_of_lt_of_le (instrLen_pos _ _) hl
  simp only [decodeOne, byteAt_append bs rest h0, ← ho, mnemonicOf_opc]
  rw [if_neg (by rw [List.length_append]; omega), decodeOperands_append m c bs rest hl, hd]
  rfl

/-- One turn of the loop (R93) over an instruction that decodes. -/
theorem decodeFrom_of_decodeOne {c : Nat} {i : Instr} {chunk : List Byte} (rest : List Byte)
    (h : decodeOne c chunk = .ok (chunk.length, i)) :
    decodeFrom c 0 (chunk ++ rest) =
      (decodeFrom (c + chunk.length) 0 rest).map (fun is => i :: is) := by
  cases chunk with
  | nil =>
    obtain ⟨m, -, hn, -, -⟩ := decodeOne_ok h
    have := instrLen_pos m.format (vregField (byteAt [] 0))
    rw [← hn] at this
    exact absurd this (Nat.lt_irrefl 0)
  | cons b tl =>
    have h' := decodeOne_append rest h
    rw [List.cons_append] at h' ⊢
    rw [decodeFrom, h']
    simp only [List.length_cons, Nat.add_sub_cancel]
    rw [decodeFrom_skip, Nat.add_right_comm, Nat.add_assoc]

/-! ### Formats read back -/

theorem decodeRV_encode (c : Nat) (m : Mnemonic) (rd : RegId) (v : Value) (rest : List Byte)
    (mk : RegId → Value → Instr) : decodeRV c (encodeRV m rd v ++ rest) mk = .ok (mk rd v) := by
  have h1 : byteAt (encodeRV m rd v ++ rest) 1 = byteOfReg rd := rfl
  have h0 : byteAt (encodeRV m rd v ++ rest) 0 = opcodeByte m v.isReg := rfl
  rw [decodeRV, h1, h0, decodeReg_byteOfReg, vregField_opcodeByte]
  cases v with
  | imm n =>
    have h : le16 (encodeRV m rd (.imm n) ++ rest) 2 = n :=
      le16_of_le16Bytes [opcodeByte m false, byteOfReg rd] n rest
    simp [Value.isReg, decodeValue, h, Except.map]
  | reg r =>
    have h : byteAt (encodeRV m rd (.reg r) ++ rest) 2 = byteOfReg r := rfl
    simp [Value.isReg, decodeValue, h, Except.map]

theorem decodeRVA_encode (c : Nat) (m : Mnemonic) (rd : RegId) (v : Value) (a : Addr)
    (rest : List Byte) (mk : RegId → Value → Addr → Instr) :
    decodeRVA c ((encodeRV m rd v ++ le16Bytes a) ++ rest) mk = .ok (mk rd v a) := by
  rw [decodeRVA, List.append_assoc, decodeRV_encode]
  have h0 : byteAt (encodeRV m rd v ++ (le16Bytes a ++ rest)) 0 = opcodeByte m v.isReg := rfl
  have ha := le16_of_le16Bytes (encodeRV m rd v) a rest
  rw [encodeRV_length] at ha
  rw [h0, vregField_opcodeByte, show valueLen .RVA v.isReg = valueLen .RV v.isReg from rfl, ha]

theorem decodeRA_encode (c : Nat) (m : Mnemonic) (rd : RegId) (a : Addr) (rest : List Byte)
    (mk : RegId → Addr → Instr) :
    decodeRA c ((opcodeByte m false :: byteOfReg rd :: le16Bytes a) ++ rest) mk = .ok (mk rd a) := by
  have ha : le16 ((opcodeByte m false :: byteOfReg rd :: le16Bytes a) ++ rest) 2 = a :=
    le16_of_le16Bytes [opcodeByte m false, byteOfReg rd] a rest
  have h1 : byteAt ((opcodeByte m false :: byteOfReg rd :: le16Bytes a) ++ rest) 1 = byteOfReg rd := rfl
  rw [decodeRA, h1, ha, decodeReg_byteOfReg]
  rfl

theorem encodeRVA_length (m : Mnemonic) (rd : RegId) (v : Value) (a : Addr) :
    (encodeRV m rd v ++ le16Bytes a).length = instrLen .RVA v.isReg := by
  rw [List.length_append, encodeRV_length, le16Bytes_length]
  rfl

/-- An opcode byte the encoder writes, with the bytes its length asks for, decodes as its operands do. -/
theorem decodeOne_of_operands {c : Nat} {bs rest tl : List Byte} {m : Mnemonic} {v : Bool} {i : Instr}
    (hb : bs = opcodeByte m v :: tl) (hl : bs.length = instrLen m.format v)
    (ho : decodeOperands m c (bs ++ rest) = .ok i) : decodeOne c (bs ++ rest) = .ok (bs.length, i) := by
  subst hb
  rw [List.cons_append, decodeOne_eq (opcField_opcodeByte m v), vregField_opcodeByte,
    if_neg (by simp only [List.length_cons, List.length_append] at *; omega), ← hl]
  rw [List.cons_append] at ho
  rw [ho]
  rfl

theorem encode_cons (i : Instr) : ∃ b tl, encode i = b :: tl := by
  cases i <;> exact ⟨_, _, rfl⟩

/-- A byte whose low bits are a defined opcode is the canonical opcode byte, or that with bit 7 set. -/
theorem opcodeByte_bit7 {b : Byte} {m : Mnemonic} (h : m.opc = opcField b) :
    b = opcodeByte m false ∨ b = opcodeByte m false ||| 0x80 := by
  have hb := opcodeByte_of_fields h
  cases hv : vregField b with
  | false => left; rw [← hb, hv]
  | true => right; rw [← hb, hv]; cases m <;> decide

/-! ### Whole programs -/

/-- The inversion lemma of `decodeProgram` (R93). -/
theorem decodeProgram_ok {buf : List Byte} {img : Image} (h : decodeProgram buf = .ok img) :
    5 ≤ buf.length ∧ img.version = byteAt buf 0 ∧ byteAt buf 0 = Config.version ∧
    img.width = le16 buf 1 ∧ img.height = le16 buf 3 ∧ decodeFrom 5 0 (buf.drop 5) = .ok img.prog ∧
    img.prog.length ≤ Config.maxProg := by
  unfold decodeProgram at h
  split at h
  · cases h
  · rename_i hl
    split at h
    · rename_i hv
      split at h
      · cases h
      · rename_i is hd
        split at h
        · rename_i hp
          cases h
          simp only [versionWf, progWf, beq_iff_eq, decide_eq_true_eq] at hv hp
          exact ⟨Nat.le_of_not_lt hl, rfl, hv, rfl, rfl, hd, hp⟩
        · cases h
    · cases h

namespace Machine

/-- The inversion lemma of `load` (R261). -/
theorem load_ok {buf : List Byte} {s : State} (h : load buf = .ok s) :
    ∃ img, decodeProgram buf = .ok img ∧ s = State.ofImage img := by
  obtain ⟨img, hd, he⟩ := map_eq_ok h
  exact ⟨img, hd, he.symm⟩

@[simp] theorem State.int_ofImage (img : Image) (k : Fin 8) : (State.ofImage img).int k = 0 :=
  State.int_reset k

@[simp] theorem State.flt_ofImage (img : Image) (k : Fin 8) : (State.ofImage img).flt k = 0 :=
  State.flt_reset k

@[simp] theorem State.ofImage_pc (img : Image) : (State.ofImage img).pc = 0 := rfl
@[simp] theorem State.ofImage_pen (img : Image) : (State.ofImage img).pen = false := rfl
@[simp] theorem State.ofImage_status (img : Image) : (State.ofImage img).status = .running := rfl
@[simp] theorem State.ofImage_hdrVersion (img : Image) : (State.ofImage img).hdrVersion = img.version := rfl
@[simp] theorem State.ofImage_hdrWidth (img : Image) : (State.ofImage img).hdrWidth = img.width := rfl
@[simp] theorem State.ofImage_hdrHeight (img : Image) : (State.ofImage img).hdrHeight = img.height := rfl
@[simp] theorem State.ofImage_prog (img : Image) : (State.ofImage img).prog = img.prog := rfl
@[simp] theorem State.ofImage_pixout (img : Image) : (State.ofImage img).pixout = [] := rfl
@[simp] theorem State.ofImage_diagout (img : Image) : (State.ofImage img).diagout = [] := rfl

/-! ### One instruction placed at the `pc` -/

/-- The placed instruction is the one fetched (log 24). -/
theorem State.withInstr_fetch (s : State) (i : Instr) : (s.withInstr i).fetch = some i := by
  simp only [State.withInstr, State.fetch, placeAt]
  split
  · simp [List.getElem?_set_self ‹_›]
  · have hl : (s.prog ++ List.replicate (s.pc - s.prog.length) Instr.hlt).length = s.pc := by
      simp only [List.length_append, List.length_replicate]
      omega
    rw [List.getElem?_append_right (Nat.le_of_eq hl), hl, Nat.sub_self]
    rfl

end Machine

end Sys2Proof
end

