-- ==== Sys2Proof/Laws/PerInstr.lean ====
section
/-! SUPPORT. Statements made per instruction: the length of an encoding is the one its own opcode byte gives,
and the opcode byte names the instruction (`30_encoding.md` R83, R89, R90, R104). -/

namespace Sys2Proof

/-- The opcode byte of `i`'s encoding has `i`'s opcode, marks a register Value in bit 7, and gives the length
of the whole encoding. -/
def Laws.EncodedLength.Statement (i : Instr) : Prop :=
  ∃ b tl, encode i = b :: tl ∧ opcField b = i.mnemonic.opc ∧
    (vregField b = true ↔ ∃ r, i.value? = some (.reg r)) ∧
    (encode i).length = instrLen i.mnemonic.format (vregField b)

namespace Laws.EncodedLength

/-- An encoding without a Value operand. -/
theorem plain {i : Instr} {tl : List Byte} (he : encode i = opcodeByte i.mnemonic false :: tl)
    (hv : i.value? = none) (hl : tl.length + 1 = instrLen i.mnemonic.format false) : Statement i :=
  ⟨_, _, he, opcField_opcodeByte _ _, by simp [hv], by rw [he, vregField_opcodeByte, ← hl]; rfl⟩

/-- An encoding with a Value operand. -/
theorem valued {i : Instr} {v : Value} {tl : List Byte}
    (he : encode i = opcodeByte i.mnemonic v.isReg :: tl) (hv : i.value? = some v)
    (hl : (encode i).length = instrLen i.mnemonic.format v.isReg) : Statement i := by
  refine ⟨_, _, he, opcField_opcodeByte _ _, ?_, by rw [hl, vregField_opcodeByte]⟩
  rw [vregField_opcodeByte, hv]
  cases v <;> simp [Value.isReg]

theorem drw : Statement .drw := plain rfl rfl rfl
theorem fwd : Statement .fwd := plain rfl rfl rfl
theorem sto (rd : RegId) (v : Value) : Statement (.sto rd v) := valued rfl rfl (encodeRV_length _ _ _)
theorem inc (rd : RegId) : Statement (.inc rd) := plain rfl rfl rfl
theorem dec (rd : RegId) : Statement (.dec rd) := plain rfl rfl rfl
theorem add (rd : RegId) (v : Value) : Statement (.add rd v) := valued rfl rfl (encodeRV_length _ _ _)
theorem sub (rd : RegId) (v : Value) : Statement (.sub rd v) := valued rfl rfl (encodeRV_length _ _ _)
theorem mul (rd : RegId) (v : Value) : Statement (.mul rd v) := valued rfl rfl (encodeRV_length _ _ _)
theorem div (rd : RegId) (v : Value) : Statement (.div rd v) := valued rfl rfl (encodeRV_length _ _ _)
theorem jnz (rd : RegId) (a : Addr) : Statement (.jnz rd a) := plain rfl rfl rfl
theorem jeq (rd : RegId) (v : Value) (a : Addr) : Statement (.jeq rd v a) :=
  valued rfl rfl (encodeRVA_length _ _ _ _)
theorem jne (rd : RegId) (v : Value) (a : Addr) : Statement (.jne rd v a) :=
  valued rfl rfl (encodeRVA_length _ _ _ _)
theorem jgt (rd : RegId) (v : Value) (a : Addr) : Statement (.jgt rd v a) :=
  valued rfl rfl (encodeRVA_length _ _ _ _)
theorem jlt (rd : RegId) (v : Value) (a : Addr) : Statement (.jlt rd v a) :=
  valued rfl rfl (encodeRVA_length _ _ _ _)
theorem hlt : Statement .hlt := plain rfl rfl rfl

end Laws.EncodedLength

end Sys2Proof
end

