-- ==== Sys2Proof/Laws/Registers.lean ====
section
/-! SUPPORT. Register writes commute with everything that does not read the register. -/

namespace Sys2Proof.Machine

variable {s : State}

theorem setInt_comm {k j : Fin 8} (h : k ≠ j) (v w : U16) :
    (s.setInt k v).setInt j w = (s.setInt j w).setInt k v := by
  simp only [State.setInt]
  congr 1
  apply Vector.ext
  intro n hn
  simp only [Vector.getElem_set]
  have : k.val ≠ j.val := fun e => h (Fin.ext e)
  split <;> split <;> first | rfl | omega

theorem setFlt_comm {k j : Fin 8} (h : k ≠ j) (v w : F64) :
    (s.setFlt k v).setFlt j w = (s.setFlt j w).setFlt k v := by
  simp only [State.setFlt]
  congr 1
  apply Vector.ext
  intro n hn
  simp only [Vector.getElem_set]
  have : k.val ≠ j.val := fun e => h (Fin.ext e)
  split <;> split <;> first | rfl | omega

@[simp] theorem setInt_setInt (k : Fin 8) (v w : U16) : (s.setInt k v).setInt k w = s.setInt k w := by
  simp only [State.setInt]
  congr 1
  apply Vector.ext
  intro n hn
  simp only [Vector.getElem_set]
  split <;> rfl

@[simp] theorem setFlt_setFlt (k : Fin 8) (v w : F64) : (s.setFlt k v).setFlt k w = s.setFlt k w := by
  simp only [State.setFlt]
  congr 1
  apply Vector.ext
  intro n hn
  simp only [Vector.getElem_set]
  split <;> rfl

theorem setInt_setFlt (k j : Fin 8) (v : F64) (w : U16) :
    (s.setFlt k v).setInt j w = (s.setInt j w).setFlt k v := rfl

/-! ### Operands -/

theorem valI_setInt {k : Fin 8} {v : U16} {u : Value} (h : RegId.int k ∉ valueRegs u) :
    (s.setInt k v).valI u = s.valI u := by
  rcases u with n | (j | j)
  · rfl
  · simp only [valueRegs, List.mem_singleton, RegId.int.injEq] at h
    simp [State.valI, State.int_setInt, Ne.symm h]
  · rfl

theorem valF_setInt {k : Fin 8} {v : U16} {u : Value} (h : RegId.int k ∉ valueRegs u) :
    (s.setInt k v).valF u = s.valF u := by
  rcases u with n | (j | j)
  · rfl
  · simp only [valueRegs, List.mem_singleton, RegId.int.injEq] at h
    simp [State.valF, State.int_setInt, Ne.symm h]
  · rfl

theorem valI_setFlt {k : Fin 8} {v : F64} {u : Value} (h : RegId.flt k ∉ valueRegs u) :
    (s.setFlt k v).valI u = s.valI u := by
  rcases u with n | (j | j)
  · rfl
  · rfl
  · simp only [valueRegs, List.mem_singleton, RegId.flt.injEq] at h
    simp [State.valI, State.flt_setFlt, Ne.symm h]

theorem valF_setFlt {k : Fin 8} {v : F64} {u : Value} (h : RegId.flt k ∉ valueRegs u) :
    (s.setFlt k v).valF u = s.valF u := by
  rcases u with n | (j | j)
  · rfl
  · rfl
  · simp only [valueRegs, List.mem_singleton, RegId.flt.injEq] at h
    simp [State.valF, State.flt_setFlt, Ne.symm h]

/-! ### Events -/

theorem emitWrap_setInt (k : Fin 8) (v : U16) (w : Bool) :
    (s.setInt k v).emitWrap w = (s.emitWrap w).setInt k v := by
  cases w <;> rfl

theorem emitWrap_setFlt (k : Fin 8) (v : F64) (w : Bool) :
    (s.setFlt k v).emitWrap w = (s.emitWrap w).setFlt k v := by
  cases w <;> rfl

/-! ### `FWD` -/

theorem moved_setFlt {k : Fin 8} (v : F64) (hx : xReg ≠ k) (hy : yReg ≠ k) :
    (s.setFlt k v).moved = s.moved.setFlt k v := by
  have hh : (s.setFlt k v).heading = s.heading := by simp only [State.heading, State.int_setFlt]
  simp only [State.moved, hh, State.flt_setFlt, if_neg hx, if_neg hy]
  rw [setFlt_comm hx.symm, setFlt_comm hy.symm]

theorem plot_setFlt {k : Fin 8} (v : F64) (hx : xReg ≠ k) (hy : yReg ≠ k) :
    (s.setFlt k v).plot = s.plot.setFlt k v := by
  have h1 : (s.setFlt k v).flt xReg = s.flt xReg := by rw [State.flt_setFlt, if_neg hx]
  have h2 : (s.setFlt k v).flt yReg = s.flt yReg := by rw [State.flt_setFlt, if_neg hy]
  simp only [State.plot, h1, h2, State.setFlt_pen]
  cases s.pen <;> rfl

end Sys2Proof.Machine
end

