-- ==== Sys2Proof/Tests/Slice0.lean ====
section
/-! SUPPORT. Tests: expected results are the vectors of `95_test_vectors.md` (named by their ids) or written
out from the rules cited; then one witness for the hypotheses of each obligation. -/

namespace Sys2Proof.Tests

open Sys2Proof.Machine

/-! ### Well-formedness refuses ill-formed parts -/

theorem test_regByteWf_refuses_0x10 : regByteWf 0x10 = false ∧ regByteWf 0x0F = true := by decide

theorem test_versionWf_refuses_0_and_2 :
    versionWf 0x00 = false ∧ versionWf 0x02 = false ∧ versionWf 0x01 = true := by decide

theorem test_progWf_refuses_65537 (p : List Instr) (h : p.length = 65537) : progWf p = false := by
  simp [progWf, h, Config.maxProg]

theorem test_progWf_accepts_65536 (p : List Instr) (h : p.length = 65536) : progWf p = true := by
  simp [progWf, h, Config.maxProg]

theorem test_imageWf_refuses_version_2 : Image.wf ⟨2, 10, 10, [.hlt]⟩ = false := by decide

/-! ### Decoding and encoding, every opcode and operand form (E1 to E24) -/

/-- The bytes decode to the instruction with their own length, and it encodes to them. -/
def bothWays (i : Instr) (bs : List Byte) : Bool :=
  decide (decodeOne 5 bs = .ok (bs.length, i) ∧ encode i = bs)

theorem test_E1_DRW : bothWays .drw [0x00] = true := by decide
theorem test_E2_FWD : bothWays .fwd [0x01] = true := by decide
theorem test_E3_STO_imm : bothWays (.sto (.int 1) (.imm 300)) [0x02, 0x01, 0x2C, 0x01] = true := by decide
theorem test_E4_STO_reg : bothWays (.sto (.int 0) (.reg (.flt 0))) [0x82, 0x00, 0x08] = true := by decide
theorem test_E5_INC : bothWays (.inc (.int 2)) [0x03, 0x02] = true := by decide
theorem test_E6_DEC : bothWays (.dec (.flt 7)) [0x04, 0x0F] = true := by decide
theorem test_E7_ADD_imm : bothWays (.add (.int 7) (.imm 90)) [0x05, 0x07, 0x5A, 0x00] = true := by decide
theorem test_E8_ADD_reg : bothWays (.add (.flt 2) (.reg (.flt 1))) [0x85, 0x0A, 0x09] = true := by decide
theorem test_E9_SUB_imm : bothWays (.sub (.flt 0) (.imm 5)) [0x06, 0x08, 0x05, 0x00] = true := by decide
theorem test_E10_SUB_reg : bothWays (.sub (.int 0) (.reg (.int 1))) [0x86, 0x00, 0x01] = true := by decide
theorem test_E11_MUL_imm :
    bothWays (.mul (.int 0) (.imm 65535)) [0x07, 0x00, 0xFF, 0xFF] = true := by decide
theorem test_E12_MUL_reg : bothWays (.mul (.int 1) (.reg (.int 1))) [0x87, 0x01, 0x01] = true := by decide
theorem test_E13_DIV_imm : bothWays (.div (.flt 1) (.imm 10)) [0x08, 0x09, 0x0A, 0x00] = true := by decide
theorem test_E14_DIV_reg : bothWays (.div (.int 0) (.reg (.int 1))) [0x88, 0x00, 0x01] = true := by decide
theorem test_E15_JNZ : bothWays (.jnz (.int 0) 4660) [0x09, 0x00, 0x34, 0x12] = true := by decide
theorem test_E16_JEQ_imm :
    bothWays (.jeq (.flt 0) (.imm 1) 6) [0x0A, 0x08, 0x01, 0x00, 0x06, 0x00] = true := by decide
theorem test_E17_JEQ_reg :
    bothWays (.jeq (.flt 0) (.reg (.flt 1)) 6) [0x8A, 0x08, 0x09, 0x06, 0x00] = true := by decide
theorem test_E18_JNE_imm :
    bothWays (.jne (.flt 2) (.imm 1) 18) [0x0B, 0x0A, 0x01, 0x00, 0x12, 0x00] = true := by decide
theorem test_E19_JNE_reg :
    bothWays (.jne (.int 0) (.reg (.int 1)) 0) [0x8B, 0x00, 0x01, 0x00, 0x00] = true := by decide
theorem test_E20_JGT_imm :
    bothWays (.jgt (.int 0) (.imm 3) 3) [0x0C, 0x00, 0x03, 0x00, 0x03, 0x00] = true := by decide
theorem test_E21_JGT_reg :
    bothWays (.jgt (.flt 5) (.reg (.flt 6)) 65535) [0x8C, 0x0D, 0x0E, 0xFF, 0xFF] = true := by decide
theorem test_E22_JLT_imm :
    bothWays (.jlt (.int 0) (.imm 9) 5) [0x0D, 0x00, 0x09, 0x00, 0x05, 0x00] = true := by decide
theorem test_E23_JLT_reg :
    bothWays (.jlt (.flt 0) (.reg (.int 0)) 2) [0x8D, 0x08, 0x00, 0x02, 0x00] = true := by decide
theorem test_E24_HLT : bothWays .hlt [0x0E] = true := by decide

/-- E25 to E30: bit 7 on an opcode without a Value operand. -/
theorem test_E25_to_E30_bit7_ignored :
    decodeOne 5 [0x80] = .ok (1, .drw) ∧ decodeOne 5 [0x81] = .ok (1, .fwd) ∧
    decodeOne 5 [0x83, 0x02] = .ok (2, .inc (.int 2)) ∧
    decodeOne 5 [0x84, 0x0F] = .ok (2, .dec (.flt 7)) ∧
    decodeOne 5 [0x89, 0x00, 0x01, 0x00] = .ok (4, .jnz (.int 0) 1) ∧
    decodeOne 5 [0x8E] = .ok (1, .hlt) := by decide

/-! ### Whole programs (L1 to L23) -/

/-- The error, or the decoded instructions, of a program with the header `01 0A 00 0A 00`. -/
def programOf (bs : List Byte) : Except LoadFailure (List Instr) :=
  (decodeProgram ([0x01, 0x0A, 0x00, 0x0A, 0x00] ++ bs)).map Image.prog

/-- Whether the program is refused with that error. -/
def refusedWith (e : DecodeError) (bs : List Byte) : Bool :=
  match programOf bs with
  | .error (.decode e') => decide (e' = e)
  | .error (.programTooLong _) => false
  | .ok _ => false

/-- Whether the program decodes to those instructions. -/
def decodesTo (is : List Instr) (bs : List Byte) : Bool :=
  match programOf bs with
  | .error _ => false
  | .ok js => decide (js = is)

theorem test_L3_header_is_little_endian :
    (load [0x01, 0x34, 0x12, 0x78, 0x56, 0x0E]).map (fun s => (s.hdrWidth, s.hdrHeight, s.prog)) =
      .ok (4660, 22136, [.hlt]) := by decide

theorem test_L4_L8_short_header_wins :
    load [0x01, 0x0A, 0x00] = .error (.decode (.truncated 3)) ∧
    load [0x02, 0x0A, 0x00] = .error (.decode (.truncated 3)) ∧
    load [] = .error (.decode (.truncated 0)) := by decide

theorem test_L6_L7_bad_version :
    load [0x02, 0x0A, 0x00, 0x0A, 0x00, 0x0E] = .error (.decode (.badVersion 0x02)) ∧
    load [0x00, 0x0A, 0x00, 0x0A, 0x00, 0x0E] = .error (.decode (.badVersion 0x00)) := by decide

theorem test_L9_to_L13_bad_opcode :
    refusedWith (.badOpcode 5 0xFF) [0xFF] = true ∧ refusedWith (.badOpcode 5 0x7F) [0x7F] = true ∧
    refusedWith (.badOpcode 5 0x0F) [0x0F] = true ∧ refusedWith (.badOpcode 5 0x8F) [0x8F] = true ∧
    refusedWith (.badOpcode 6 0x10) [0x0E, 0x10] = true := by decide

theorem test_L14_to_L17_truncated :
    refusedWith (.truncated 5) [0x02, 0x00, 0x03] = true ∧ refusedWith (.truncated 5) [0x82, 0x00] = true ∧
    decodesTo [.sto (.int 0) (.reg (.flt 0))] [0x82, 0x00, 0x08] = true ∧
    refusedWith (.truncated 5) [0x0A, 0x08, 0x01, 0x00, 0x06] = true := by decide

theorem test_L18_to_L21_bad_register :
    refusedWith (.badRegister 6 0x10) [0x03, 0x10] = true ∧
    refusedWith (.badRegister 7 0x1F) [0x85, 0x00, 0x1F] = true ∧
    refusedWith (.badRegister 6 0x10) [0x02, 0x10, 0x00, 0x00] = true ∧
    decodesTo [.sto (.int 0) (.imm 16)] [0x02, 0x00, 0x10, 0x00] = true ∧
    refusedWith (.badRegister 6 0x10) [0x03, 0x10, 0xFF] = true := by decide

theorem test_L22_L23_index_counts_instructions :
    decodesTo [.jnz (.int 0) 65535, .hlt] [0x09, 0x00, 0xFF, 0xFF, 0x0E] = true ∧
    decodesTo [.drw, .fwd, .hlt] [0x00, 0x01, 0x0E] = true := by decide

/-! ### Words as the opcode table numbers them -/

/-- From reset the word is decoded, placed, fetched and run. -/
def fetches (i : Instr) (nbits w : Nat) : Bool :=
  decide (decodeTableWord nbits w = some i) && decide ((State.reset.withFetchWord nbits w).fetch = some i)

theorem test_table_words :
    fetches .drw 8 0x00 = true ∧ fetches .hlt 8 0x8E = true ∧ fetches (.dec (.flt 7)) 16 0x0F04 = true ∧
    fetches (.sto (.int 1) (.imm 300)) 32 0x012C0102 = true ∧
    fetches (.jnz (.int 0) 4660) 32 0x12340009 = true ∧
    fetches (.jgt (.flt 5) (.reg (.flt 6)) 65535) 40 0xFFFF0E0D8C = true ∧
    fetches (.jeq (.flt 0) (.imm 1) 6) 48 0x00060001080A = true := by decide

theorem test_table_word_refused :
    decodeTableWord 8 0x0F = none ∧ decodeTableWord 16 0x1003 = none := by decide

/-! ### Helpers: small states, one field after one instruction -/

/-- Reset with some registers set. -/
def st (is : List (Fin 8 × U16)) (fs : List (Fin 8 × F64)) : State :=
  fs.foldl (fun s p => s.setFlt p.1 p.2) (is.foldl (fun s p => s.setInt p.1 p.2) State.reset)

/-- A view of the next state, none if there is none. -/
def after {α : Type} (i : Instr) (s : State) (f : State → α) : Option α :=
  match exec i s with
  | .next t => some (f t)
  | .fault _ => none
  | .refused _ => none

/-- The events of a state: the pixels' coordinates and the indexes of the wraps. -/
def events (s : State) : List (Int × Int) × List Nat :=
  (s.pixout.map (fun p => (p.x.toInt, p.y.toInt)), s.diagout.map Diag.index)

/-! ### `DRW`, `FWD`, `HLT` -/

theorem test_W1_W2_DRW : after .drw (st [] []) (fun t => (t.pen, t.pc, events t)) = some (true, 1, [], []) ∧
    after .drw { st [] [] with pen := true } (fun t => (t.pen, t.pc)) = some (false, 1) := by decide

theorem test_W5_FWD_heading_360 : after .fwd { st [(7, 360)] [] with pen := true }
    (fun t => (t.flt 5, t.int 7, events t)) =
      some (0x3FF0000000000000, 360, [(1, 0)], []) := by decide +kernel

theorem test_W9_FWD_truncates_toward_zero :
    after .fwd { st [] [(5, 0xBFF8000000000000), (6, 0xBFE0000000000000)] with pen := true }
      (fun t => (t.flt 5, t.flt 6, events t)) =
      some (0xBFE0000000000000, 0xBFE0000000000000, [(0, 0)], []) := by decide +kernel

theorem test_H1_HLT : after .hlt { st [(0, 9)] [] with pen := true, pc := 4 }
    (fun t => (t.status, t.pc, t.pen, t.int 0)) = some (.halted, 4, true, 9) := by decide

theorem test_H4_H5_step_past_the_end :
    step { st [] [] with pc := 65535, prog := [.drw] } =
      .next { st [] [] with pc := 65535, prog := [.drw], status := .faulted .pcOutOfRange 65535 } := rfl

/-! ### `STO INC DEC ADD SUB MUL DIV`, integer destination -/

/-- I3, I4, I5: 2.75 truncates to 2, -2.0 clamps to 0, and 70000.5 to 65535. -/
theorem test_I3_I4_I5_STO :
    after (.sto (.int 0) (.reg (.flt 0))) (st [] [(0, 0x4006000000000000)])
      (fun t => (t.int 0, t.pc, events t)) = some (2, 1, [], []) ∧
    after (.sto (.int 0) (.reg (.flt 0))) (st [] [(0, 0xC000000000000000)]) (·.int 0) = some 0 ∧
    after (.sto (.int 0) (.reg (.flt 0))) (st [] [(0, 0x40F1170800000000)]) (·.int 0) = some 65535 := by
  decide +kernel

theorem test_I8_I9_INC :
    after (.inc (.int 0)) (st [(0, 65535)] []) (fun t => (t.int 0, events t)) = some (0, [], [0]) ∧
    after (.inc (.int 0)) (st [(0, 65534)] []) (fun t => (t.int 0, events t)) = some (65535, [], []) := by
  decide

theorem test_I10_I11_DEC :
    after (.dec (.int 0)) (st [(0, 0)] []) (fun t => (t.int 0, events t)) = some (65535, [], [0]) ∧
    after (.dec (.int 0)) (st [(0, 1)] []) (fun t => (t.int 0, events t)) = some (0, [], []) := by decide

theorem test_I13_I14_ADD :
    after (.add (.int 0) (.reg (.int 0))) (st [(0, 65535)] []) (fun t => (t.int 0, events t)) =
      some (65534, [], [0]) ∧
    after (.add (.int 0) (.imm 0)) (st [(0, 65535)] []) (fun t => (t.int 0, events t)) =
      some (65535, [], []) := by decide

theorem test_I16_I18_F10_SUB :
    after (.sub (.flt 0) (.imm 5)) (st [] [(0, 0x4008000000000000)]) (·.flt 0) =
      some 0xC000000000000000 ∧
    after (.sub (.int 0) (.imm 5)) (st [(0, 3)] []) (fun t => (t.int 0, events t)) =
      some (65534, [], [0]) ∧
    after (.sub (.int 0) (.reg (.int 0))) (st [(0, 777)] []) (fun t => (t.int 0, events t)) =
      some (0, [], []) := by decide +kernel

theorem test_I20_I24_MUL :
    after (.mul (.int 1) (.reg (.int 1))) (st [(1, 300)] []) (fun t => (t.int 1, events t)) =
      some (24464, [], [0]) ∧
    after (.mul (.int 0) (.imm 257)) (st [(0, 255)] []) (fun t => (t.int 0, events t)) =
      some (65535, [], []) := by decide

/-- I26, I30, and I32, I33: 0.5 converts to 0 and faults, 2.9 converts to 2. -/
theorem test_I26_I30_I32_I33_DIV :
    after (.div (.int 0) (.imm 2)) (st [(0, 65535)] []) (fun t => (t.int 0, t.pc, t.diagout.length)) =
      some (32767, 1, 0) ∧
    after (.div (.int 0) (.imm 0)) { st [(0, 7)] [] with pc := 3 }
      (fun t => (t.int 0, t.pc, t.status)) = some (7, 3, .faulted .divideByZero 3) ∧
    after (.div (.int 0) (.reg (.flt 0))) (st [(0, 7)] [(0, 0x3FE0000000000000)])
      (fun t => (t.int 0, t.pc, t.status)) = some (7, 0, .faulted .divideByZero 0) ∧
    after (.div (.int 0) (.reg (.flt 0))) (st [(0, 7)] [(0, 0x4007333333333333)])
      (fun t => (t.int 0, t.pc, t.status)) = some (3, 1, .running) := by decide +kernel

/-! ### `STO INC DEC ADD SUB MUL DIV`, float destination -/

theorem test_F2_F5_STO :
    after (.sto (.flt 0) (.imm 65535)) (st [] []) (·.flt 0) = some 0x40EFFFE000000000 ∧
    after (.sto (.flt 0) (.reg (.flt 1))) (st [] [(1, 0x8000000000000000)]) (·.flt 0) =
      some 0x8000000000000000 := by decide +kernel

theorem test_F6_F8_INC :
    after (.inc (.flt 0)) (st [] []) (·.flt 0) = some 0x3FF0000000000000 ∧
    after (.inc (.flt 0)) (st [] [(0, 0x4340000000000000)]) (·.flt 0) = some 0x4340000000000000 := by
  decide +kernel

theorem test_F7_DEC : after (.dec (.flt 0)) (st [] []) (·.flt 0) = some 0xBFF0000000000000 := by
  decide +kernel

theorem test_F9_ADD : after (.add (.flt 0) (.reg (.flt 1)))
    (st [] [(0, 0x3FB999999999999A), (1, 0x3FC999999999999A)]) (·.flt 0) =
      some 0x3FD3333333333334 := by decide +kernel

/-- F11: `inf - inf` is some NaN. -/
theorem test_F11_SUB_inf : ∃ t, exec (.sub (.flt 0) (.reg (.flt 0))) (st [] [(0, infF false)]) = .next t ∧
    isNaN (t.flt 0) = true := by
  refine ⟨_, rfl, ?_⟩
  rw [(putFlt_spec _ _).1]
  have h : (st [] [(0, infF false)]).flt 0 = infF false := by decide
  rw [show (st [] [(0, infF false)]).valF (.reg (.flt 0)) = infF false from h, h, fsub,
    sumWith_opposite_infs _ (by decide) (by decide) (by decide)]
  exact isNaN_nanResult _ _ _

/-- F13, F19: 1/3 times 3 is 1.0; 1.0e308 times 10 overflows to infinity. -/
theorem test_F13_F19_MUL :
    after (.mul (.flt 0) (.imm 3)) (st [] [(0, 0x3FD5555555555555)]) (·.flt 0) =
      some 0x3FF0000000000000 ∧
    after (.mul (.flt 0) (.imm 10)) (st [] [(0, 0x7FE1CCF385EBC8A0)]) (·.flt 0) =
      some 0x7FF0000000000000 := by decide +kernel

/-- F12, F15, F21: one by three, minus one by zero, one by minus zero. -/
theorem test_F12_F15_F21_DIV :
    after (.div (.flt 0) (.imm 3)) (st [] [(0, 0x3FF0000000000000)]) (·.flt 0) =
      some 0x3FD5555555555555 ∧
    after (.div (.flt 0) (.imm 0)) (st [] [(0, 0xBFF0000000000000)]) (fun t => (t.flt 0, t.status)) =
      some (0xFFF0000000000000, .running) ∧
    after (.div (.flt 0) (.reg (.flt 1))) (st [] [(0, 0x3FF0000000000000), (1, 0x8000000000000000)])
      (·.flt 0) = some 0xFFF0000000000000 := by decide +kernel

/-! ### Jumps: where the `pc` goes from 2 with target 9 -/

/-- The `pc` after a jump. -/
def pcAfter (i : Instr) (is : List (Fin 8 × U16)) (fs : List (Fin 8 × F64)) : Option Nat :=
  after i { st is fs with pc := 2 } State.pc

theorem test_J3_J30_JNZ : pcAfter (.jnz (.int 0) 9) [(0, 1)] [] = some 9 ∧
    pcAfter (.jnz (.int 0) 9) [] [] = some 3 := by decide

theorem test_J1_J2_JEQ : pcAfter (.jeq (.int 0) (.imm 5) 9) [(0, 5)] [] = some 9 ∧
    pcAfter (.jeq (.int 0) (.imm 3) 9) [(0, 5)] [] = some 3 := by decide

/-- J6, J7: the integer register selects the bank, so 2.9 is tested as 2 and -7.0 as 0. -/
theorem test_J6_J7_JNE : pcAfter (.jne (.int 0) (.reg (.flt 0)) 9) [(0, 2)] [(0, 0x4007333333333333)] = some 3 ∧
    pcAfter (.jne (.int 0) (.reg (.flt 0)) 9) [(0, 2)] [(0, 0xC01C000000000000)] = some 9 := by
  decide +kernel

/-- J4, J22: unsigned on integers, exact on floats (2^-60 against 0). -/
theorem test_J4_J22_JGT : pcAfter (.jgt (.int 0) (.imm 1) 9) [(0, 65535)] [] = some 9 ∧
    pcAfter (.jgt (.flt 0) (.imm 0) 9) [] [(0, 0x3C30000000000000)] = some 9 := by decide +kernel

/-- J4, J15: unsigned on integers, exact on floats (1 - 2^-53 against 1). -/
theorem test_J4_J15_JLT : pcAfter (.jlt (.int 0) (.imm 1) 9) [(0, 65535)] [] = some 3 ∧
    pcAfter (.jlt (.flt 0) (.imm 1) 9) [] [(0, 0x3FEFFFFFFFFFFFFF)] = some 9 := by decide +kernel

/-- J15, J16, J17 with `EPS_REF` = 2^-52 in the place of `EPS`: below, at and above the tolerance. -/
theorem test_J15_J16_J17_tolerance :
    (let d := fdist 0x3FEFFFFFFFFFFFFF oneF
     (flt d 0x3CB0000000000000, fgt d 0x3CB0000000000000)) = (true, false) ∧
    (let d := fdist 0x3FF0000000000001 oneF
     (flt d 0x3CB0000000000000, fgt d 0x3CB0000000000000)) = (false, false) ∧
    (let d := fdist 0x3FF0000000000002 oneF
     (flt d 0x3CB0000000000000, fgt d 0x3CB0000000000000)) = (false, true) := by decide +kernel

/-- J12: `JEQ S 0` on +0.0, for every `EPS`. -/
theorem test_J12_JEQ_zero : (st [] []).predJeq (.flt 0) (.imm 0) = true := by
  have h : fdist ((st [] []).flt 0) ((st [] []).valF (.imm 0)) = 0 := by decide +kernel
  simp only [State.predJeq, State.compare]
  rw [h]
  exact eps_bounds.1

/-! ### `DIR_REF` (the table of R154) -/

theorem test_dirRef_entries :
    dirRef 0 = (0x3FF0000000000000, 0x0000000000000000) ∧
    dirRef 90 = (0x3C91A62633145C07, 0x3FF0000000000000) ∧
    dirRef 180 = (0xBFF0000000000000, 0x3CA1A62633145C07) := by decide +kernel

/-- W7, W8: the sums of `FWD` at headings 90 and 180 where the table is `DIR_REF`. -/
theorem test_W7_W8_sums_under_dirRef (h : DirIsRef) :
    (fadd 0x4008000000000000 (dir 90).1, fadd 0 (dir 90).2) = (0x4008000000000000, 0x3FF0000000000000) ∧
    (fadd 0 (dir 180).1, fadd 0 (dir 180).2) = (0xBFF0000000000000, 0x3CA1A62633145C07) := by
  rw [h 90 (by decide), h 180 (by decide)]
  decide +kernel

/-! ### Conversions at their bounds (R128, R129) -/

theorem test_f2p_bounds :
    (f2p 0x41DFFFFFFFC00000).toInt = 2147483647 ∧ (f2p (infF true)).toInt = -2147483648 ∧
    (f2p 0xBFF8000000000000).toInt = -1 ∧ f2p canonicalNaN = 0 := by decide +kernel

/-! ### Witnesses: each obligation's hypotheses are met, every clause at a boundary -/

/-- A minimal program: source example S7. -/
def minimal : List Byte := [0x01, 0x0A, 0x00, 0x0A, 0x00, 0x0E]

/-- A state with a program. -/
def running (p : List Instr) : State := { State.reset with prog := p }

theorem witness_LoadFillsStoreAndResetsTheRest : ∃ s, load minimal = .ok s := ⟨_, rfl⟩

theorem witness_LoadEstablishesTheInvariant : ∃ s, load minimal = .ok s := ⟨_, rfl⟩

theorem witness_LoadOfEncodedProgramIsThatProgram :
    Image.wf ⟨1, 65535, 0, [.jgt (.flt 7) (.reg (.int 7)) 65535, .hlt]⟩ = true := by decide

/-- Any number of `HLT`s in one byte, canonical (0x0E) or with bit 7 set (0x8E). -/
theorem decodesAs_hlts {b : Byte} (h : ∀ c, decodeOne c [b] = .ok (1, .hlt)) (c n : Nat) :
    DecodesAs c (List.replicate n b) (List.replicate n .hlt) := by
  induction n generalizing c with
  | zero => exact .nil c
  | succ n ih => exact .cons (chunk := [b]) (h c) (ih _)

theorem witness_LoadRefusesTooLongProgram :
    ([0x01, 0x0A, 0x00, 0x0A, 0x00] : List Byte).length = 5 ∧
    byteAt [0x01, 0x0A, 0x00, 0x0A, 0x00] 0 = 1 ∧
    DecodesAs 5 (List.replicate 65537 0x8E) (List.replicate 65537 .hlt) ∧
    65536 < (List.replicate 65537 Instr.hlt).length :=
  ⟨rfl, rfl, decodesAs_hlts (fun _ => rfl) 5 65537, by rw [List.length_replicate]; decide⟩

theorem witness_LoadChecksHeaderFirst_short : ([0x01, 0x0A, 0x00, 0x0A] : List Byte).length < 5 := by decide

theorem witness_LoadChecksHeaderFirst_version :
    5 ≤ ([0x02, 0x0A, 0x00, 0x0A, 0x00] : List Byte).length ∧
    byteAt [0x02, 0x0A, 0x00, 0x0A, 0x00] 0 ≠ 1 := by decide

theorem witness_BitSevenIsIgnoredExactlyWithoutAValue :
    decodeOne 5 [0x83, 0x0F] = .ok (2, .inc (.flt 7)) ∧ decodeOne 5 [0x03, 0x0F] = .ok (2, .inc (.flt 7)) ∧
    Instr.value? (.jnz (.flt 7) 65535) = none ∧
    encode (.jnz (.flt 7) 65535) = 0x09 :: [0x0F, 0xFF, 0xFF] := by
  decide

theorem witness_UndefinedOpcodesAreRejected :
    0x0F ≤ (0x0F : Byte).toNat % 128 ∧ 0x0F ≤ (0x8F : Byte).toNat % 128 ∧
    0x0F ≤ (0xFF : Byte).toNat % 128 := by decide

theorem witness_ShortInstructionIsTruncated :
    opcField 0x82 = Mnemonic.sto.opc ∧
    ([0x82, 0x00] : List Byte).length < instrLen Mnemonic.sto.format (vregField 0x82) := by decide

theorem witness_RegisterByteAboveFifteenIsRejected_rd :
    opcField 0x03 = Mnemonic.inc.opc ∧ Mnemonic.inc.format ≠ .N ∧
    instrLen Mnemonic.inc.format (vregField 0x03) ≤ ([0x03, 0x10] : List Byte).length ∧
    0x0F < (0x10 : Byte).toNat := by decide

theorem witness_RegisterByteAboveFifteenIsRejected_rs :
    opcField 0x8D = Mnemonic.jlt.opc ∧ (Mnemonic.jlt.format = .RV ∨ Mnemonic.jlt.format = .RVA) ∧
    vregField 0x8D = true ∧
    instrLen Mnemonic.jlt.format (vregField 0x8D) ≤ ([0x8D, 0x0F, 0x10, 0, 0] : List Byte).length ∧
    (0x0F : Byte).toNat ≤ 0x0F ∧ 0x0F < (0x10 : Byte).toNat := by decide

theorem witness_StepRunsTheFetchedInstruction :
    (running [.hlt]).pc < (running [.hlt]).prog.length ∧ (running [.hlt]).status = .running := by decide

/-- `INC A` with the ignored bit 7 set. -/
theorem decodesAs_inc_bit7 : DecodesAs 5 [0x83, 0x00] [.inc (.int 0)] :=
  .cons (chunk := [0x83, 0x00]) (rest := []) (by decide) (.nil _)

theorem witness_DecodingGoesOnAfterEachInstruction : ∃ pre is, DecodesAs 5 pre is ∧ pre ≠ encodeInstrs is :=
  ⟨_, _, decodesAs_inc_bit7, by decide⟩

/-- An undefined opcode, a short instruction, and a register byte above 0x0F in either place. -/
theorem witness_FirstDecodeErrorFailsTheLoad :
    ([0x01, 0x0A, 0x00, 0x0A, 0x00] : List Byte).length = 5 ∧
    byteAt [0x01, 0x0A, 0x00, 0x0A, 0x00] 0 = 1 ∧ DecodesAs 5 [0x83, 0x00] [.inc (.int 0)] ∧
    decodeOne (5 + ([0x83, 0x00] : List Byte).length) [0x0F] = .error (.badOpcode 7 0x0F) ∧
    decodeOne (5 + ([0x83, 0x00] : List Byte).length) [0x82, 0x00] = .error (.truncated 7) ∧
    decodeOne (5 + ([0x83, 0x00] : List Byte).length) [0x03, 0x10] = .error (.badRegister 8 0x10) ∧
    decodeOne (5 + ([0x83, 0x00] : List Byte).length) [0x82, 0x0F, 0x10] = .error (.badRegister 9 0x10) := by
  exact ⟨by decide, by decide, decodesAs_inc_bit7, by decide, by decide, by decide, by decide⟩

theorem witness_StepRunsTheLoadedBytes : ∃ s t : State,
    ([0x01, 0x0A, 0x00, 0x0A, 0x00] : List Byte).length = 5 ∧ DecodesAs 5 [0x83, 0x00] [.inc (.int 0)] ∧
    decodeOne (5 + ([0x83, 0x00] : List Byte).length) [0x8E] = .ok (1, .hlt) ∧
    load ([0x01, 0x0A, 0x00, 0x0A, 0x00] ++ ([0x83, 0x00] ++ [0x8E])) = .ok s ∧
    t.prog = s.prog ∧ t.status = .running ∧ t.pc = [Instr.inc (.int 0)].length :=
  ⟨_, { running [.inc (.int 0), .hlt] with pc := 1 }, rfl, decodesAs_inc_bit7, rfl, rfl, rfl, rfl, rfl⟩

theorem witness_StepPastTheEndFaults :
    (running []).status = .running ∧ (running []).prog.length ≤ (running []).pc := by decide

theorem witness_TerminalStatusHasNoStep :
    (running []).halt.status ≠ .running ∧ (running []).halt.status = .halted ∧
    ((running []).raise .pcOutOfRange).status ≠ .running ∧
    ((running []).raise .pcOutOfRange).status = .faulted .pcOutOfRange 0 := by decide

theorem witness_RunningMachineAlwaysSteps : (running [.hlt]).status = .running := rfl

/-- A state with no events and at most `MAXPROG` instructions satisfies the invariant while `Running`. -/
theorem inv_running (p : List Instr) (h : p.length ≤ Config.maxProg) : (running p).Inv := by
  refine ⟨h, Nat.zero_le _, rfl, ?_, ?_, ?_, ?_, ?_, ?_⟩ <;> simp [running, State.reset]

theorem witness_StepKeepsTheInvariant :
    (running [.drw, .hlt]).Inv ∧ ∃ t, step (running [.drw, .hlt]) = .next t :=
  ⟨inv_running _ (by decide), _, rfl⟩

theorem witness_PcAfterEachInstruction :
    (∃ t, exec .drw (running []) = .next t) ∧ (∃ t, exec .fwd (running []) = .next t) ∧
    (∃ t, exec (.div (.int 0) (.imm 0)) (running []) = .next t) ∧
    ∃ t, exec (.jnz (.int 0) 65535) (st [(0, 1)] []) = .next t :=
  ⟨⟨_, rfl⟩, ⟨_, rfl⟩, ⟨_, rfl⟩, ⟨_, rfl⟩⟩

/-- A jump that falls through, an ending instruction, and the increment at `N - 1`. -/
theorem witness_PcNeverWrapsAndNeverReachesARegister :
    (∃ t, exec (.jnz (.int 0) 0) (running []) = .next t) ∧
    (running []).taken (.jnz (.int 0) 0) = false ∧ (running []).ends (.jnz (.int 0) 0) = false ∧
    (∃ t, exec (.div (.int 0) (.imm 0)) (running []) = .next t) ∧
    (running []).taken (.div (.int 0) (.imm 0)) = false ∧
    (running []).ends (.div (.int 0) (.imm 0)) = true ∧
    (running [.drw]).status = .running ∧ (running [.drw]).fetch = some .drw ∧
    (running [.drw]).taken .drw = false ∧ (running [.drw]).ends .drw = false ∧
    (running [.drw]).pc + 1 = (running [.drw]).n :=
  ⟨⟨_, rfl⟩, rfl, rfl, ⟨_, rfl⟩, rfl, rfl, rfl, rfl, rfl, rfl, rfl⟩

theorem witness_StepEmitsAtMostOneEvent :
    (∃ t, step (running [.dec (.int 0)]) = .next t) ∧
    ∃ t, step { running [.fwd] with pen := true } = .next t := ⟨⟨_, rfl⟩, _, rfl⟩

theorem witness_OutputStreamsOnlyGrow : ∃ t, core.run 2 (running [.dec (.int 0), .drw]) = .next t := ⟨_, rfl⟩

theorem witness_PenIsWrittenByDrwAndReadByFwd :
    (∃ t, exec .drw (running []) = .next t) ∧ Instr.drw ≠ .fwd ∧ ∃ t, exec .fwd (running []) = .next t :=
  ⟨⟨_, rfl⟩, by decide, _, rfl⟩

theorem witness_ProgramIsImmutableDuringARun :
    ∃ s t, load minimal = .ok s ∧ core.run 1 s = .next t := ⟨_, _, rfl, rfl⟩

theorem witness_StatusChangesOnlyAtHltAndAtTheTwoFaults :
    (∃ t, exec .hlt (running []) = .next t) ∧ (∃ t, exec (.div (.int 7) (.imm 0)) (running []) = .next t) ∧
    (∃ t, exec (.div (.flt 7) (.imm 0)) (running []) = .next t) ∧
    (∃ t, step (running [.hlt]) = .next t ∧ (running [.hlt]).fetch = some .hlt) ∧
    (∃ t, step (running [.div (.int 7) (.imm 0)]) = .next t) ∧
    ∃ t, step (running []) = .next t ∧ (running []).fetch = none :=
  ⟨⟨_, rfl⟩, ⟨_, rfl⟩, ⟨_, rfl⟩, ⟨_, rfl, rfl⟩, ⟨_, rfl⟩, _, rfl, rfl⟩

theorem witness_StatusIsVisibleAtThePorts_pcOutOfRange :
    ((running []).raise .pcOutOfRange).Inv ∧
    ((running []).raise .pcOutOfRange).status = .faulted .pcOutOfRange 0 := by
  refine ⟨⟨by decide, by decide, rfl, ?_, ?_, ?_, ?_, ?_, ?_⟩, rfl⟩ <;>
    simp [running, State.reset, State.raise, State.n]

theorem witness_StatusIsVisibleAtThePorts_divideByZero :
    ((running [.div (.int 0) (.imm 0)]).raise .divideByZero).Inv ∧
    ((running [.div (.int 0) (.imm 0)]).raise .divideByZero).status = .faulted .divideByZero 0 := by
  refine ⟨⟨by decide, by decide, rfl, ?_, ?_, fun _ _ => ⟨0, .imm 0, rfl, rfl⟩, ?_, ?_, ?_⟩, rfl⟩ <;>
    simp [running, State.reset, State.raise]

theorem witness_RegistersReadAndWrittenAreTheListedOnes :
    (∃ t, exec (.sto (.int 0) (.imm 1)) (running []) = .next t) ∧
    RegId.int 0 ∉ regsRead (.sto (.int 0) (.imm 1)) ∧ RegId.int 0 ∈ regsWritten (.sto (.int 0) (.imm 1)) ∧
    (∃ t, exec (.sto (.flt 7) (.imm 1)) (running []) = .next t) ∧
    RegId.flt 7 ∉ regsRead (.sto (.flt 7) (.imm 1)) ∧ RegId.flt 0 ∉ regsRead .fwd ∧
    ∃ t, (running []).status = .running ∧ exec (.div (.int 0) (.imm 0)) (running []) = .next t ∧
      t.status = .faulted .divideByZero 0 :=
  ⟨⟨_, rfl⟩, by decide, by decide, ⟨_, rfl⟩, by decide, by decide, _, rfl, rfl, rfl⟩

theorem witness_BanksDoNotAlias :
    (∃ t, exec (.inc (.int 0)) (running []) = .next t) ∧ (∀ k, RegId.flt k ∉ regsWritten (.inc (.int 0))) ∧
    (∃ t, exec (.inc (.flt 0)) (running []) = .next t) ∧ (∀ k, RegId.int k ∉ regsWritten (.inc (.flt 0))) ∧
    firstReg? (.inc (.int 0)) = some (.int 0) ∧ f2u 0x3FE0000000000000 = f2u ((running []).flt 0) :=
  ⟨⟨_, rfl⟩, by decide, ⟨_, rfl⟩, by decide, rfl, by decide +kernel⟩

/-- The crossing clauses: a Value register of the other bank, and a float register that holds its `U2F`. -/
theorem witness_BanksDoNotAlias_crossing :
    firstReg? (.div (.int 7) (.reg (.flt 0))) = some (.int 7) ∧
    Instr.value? (.div (.int 7) (.reg (.flt 0))) = some (.reg (.flt 0)) ∧
    firstReg? (.jlt (.flt 0) (.reg (.int 7)) 65535) = some (.flt 0) ∧
    Instr.value? (.jlt (.flt 0) (.reg (.int 7)) 65535) = some (.reg (.int 7)) ∧
    (st [(7, 65535)] [(1, u2f 65535)]).flt 1 = u2f ((st [(7, 65535)] [(1, u2f 65535)]).int 7) := by
  decide +kernel

/-- A state with the pen down at the origin. -/
def penDown (h : U16) : State := { st [(7, h)] [] with pen := true }

theorem witness_FwdAtHeadingZeroMovesOneUnitRight :
    ((penDown 360).int 7).toNat % 360 = 0 ∧ ((penDown 0).int 7).toNat % 360 = 0 ∧
    (penDown 360).flt 5 = zeroF false ∧ (penDown 360).flt 6 = zeroF false ∧ (penDown 360).pen = true := by
  decide

theorem witness_FwdFromOriginPlotsWithinOnePixel :
    DirAccurateAt (((penDown 0).int 7).toNat % 360) ∧ (penDown 0).flt 5 = zeroF false ∧
    (penDown 0).flt 6 = zeroF false ∧ (penDown 0).pen = true ∧ ∃ t, exec .fwd (penDown 0) = .next t := by
  refine ⟨?_, by decide, by decide, rfl, _, rfl⟩
  rw [show ((penDown 0).int 7).toNat % 360 = 0 by decide]
  have hU : (unitsPerOne : ℝ) ≠ 0 := by exact_mod_cast unitsPerOne_pos.ne'
  refine ⟨⟨by decide, ?_⟩, ⟨by decide, ?_⟩⟩
  · rw [show (dir 0).1 = oneF from rfl, valueOf_oneF, Int.cast_natCast, div_self hU]
    simp
  · rw [show (dir 0).2 = zeroF false from rfl, valueOf_zeroF, Int.cast_zero, zero_div]
    simp

theorem witness_FloatArithmeticIsSilent :
    (∃ t, exec (.div (.flt 0) (.imm 0)) (running []) = .next t) ∧
    (∀ k, RegId.int k ∉ regsWritten (.div (.flt 0) (.imm 0))) ∧ Instr.div (.flt 0) (.imm 0) ≠ .hlt ∧
    isZero (zeroF true) = true := ⟨⟨_, rfl⟩, by decide, by decide, by decide⟩

theorem witness_IntegerDivisionIsTheUnsignedQuotient : (running []).valI (.imm 1) ≠ 0#16 := by decide

theorem witness_IntegerDivisionByZeroFaults :
    (running []).valI (.imm 0) = 0#16 ∧ (running []).valI (.reg (.int 7)) = 0#16 := by decide

theorem witness_IntegerDivisionByFloatFaultsBelowOne :
    (st [] [(0, oneF)]).status = .running ∧
    ∃ t, exec (.div (.int 0) (.reg (.flt 0))) (st [] [(0, oneF)]) = .next t := by
  refine ⟨rfl, ?_⟩
  rw [exec, execDiv, if_neg (by decide +kernel)]
  exact ⟨_, rfl⟩

theorem witness_SameRegisterUsesTheOldValue : (st [(0, 1)] []).int 0 ≠ 0#16 ∧ (st [] []).int 0 = 0#16 := by
  decide

theorem witness_ToleranceBandOfJeqAndJne_below :
    Machine.flt (fabs (fsub ((st [] []).flt 0) ((st [] []).valF (.imm 0)))) eps = true := by
  rw [show fabs (fsub ((st [] []).flt 0) ((st [] []).valF (.imm 0))) = 0 by decide +kernel]
  exact eps_bounds.1

theorem witness_ToleranceBandOfJeqAndJne_above :
    fgt (fabs (fsub ((st [] [(0, oneF)]).flt 0) ((st [] [(0, oneF)]).valF (.imm 0)))) eps = true := by
  rw [show fabs (fsub ((st [] [(0, oneF)]).flt 0) ((st [] [(0, oneF)]).valF (.imm 0))) = oneF by
    decide +kernel]
  have h := eps_bounds.2
  simp only [Machine.flt, fgt, Bool.and_eq_true] at *
  exact ⟨⟨h.1.2, h.1.1⟩, h.2⟩

theorem eps_finite : isFinite eps = true := by
  have h := eps_lt_one
  have hm : unitsOfBits (magBits eps) < unitsOfBits (magBits oneF) := by
    rw [← valueOf_natAbs, ← valueOf_natAbs, valueOf_oneF]
    have := eps_pos
    omega
  rw [isFinite, decide_eq_true_eq]
  exact lt_trans (unitsOfBits_strictMono.lt_iff_lt.mp hm) (by decide)

theorem witness_ToleranceBandOfJeqAndJne_at :
    fabs (fsub ((st [] [(0, eps)]).flt 0) ((st [] [(0, eps)]).valF (.imm 0))) = eps := by
  have h0 : (st [] [(0, eps)]).flt 0 = eps := by simp [st]
  have hv : (st [] [(0, eps)]).valF (.imm 0) = zeroF false := u2f_zero
  have hz : isFinite (zeroF false) = true := by decide
  rw [h0, hv]
  refine eq_of_valueOf (isNeg_fabs _) (isNeg_of_pos eps_pos) ?_
  have hd := valueOf_fdist eps_finite hz
  rw [fdist] at hd
  rw [hd, valueOf_zeroF, sub_zero, valueOf_natAbs, roundMag_units (by simpa [isFinite] using eps_finite),
    ← valueOf_natAbs]
  have := eps_pos
  omega

theorem witness_ToleranceBandOfJeqAndJne_nan :
    isNaN (fabs (fsub ((st [] [(0, canonicalNaN)]).flt 0) ((st [] [(0, canonicalNaN)]).valF (.imm 0)))) =
      true := fdist_nan (.inl (by decide))

theorem witness_NaNNeverJumpsOnAFloatRegister :
    isNaN ((st [] [(0, canonicalNaN)]).flt 0) = true ∧
    isNaN ((st [] [(1, 0xFFFFFFFFFFFFFFFF)]).valF (.reg (.flt 1))) = true := by decide

/-- What the statement leaves aside: an integer register takes a NaN operand as 0 and jumps on it. -/
theorem test_NaN_is_zero_to_an_integer_register :
    pcAfter (.jeq (.int 0) (.reg (.flt 0)) 9) [] [(0, 0x7FF8000000000000)] = some 9 := by decide +kernel

/-- -1.0 in a float register beside 65535 as an immediate, in an integer register and in a float register. -/
theorem witness_EpsilonSeparatesIntegers :
    let s := st [(0, 65535)] [(0, fneg oneF), (1, u2f 65535)]
    isFinite (s.flt 0) = true ∧ valueOf (s.flt 0) = (-1 : Int) * unitsPerOne ∧
    ∀ v ∈ [Value.imm 65535, .reg (.int 0), .reg (.flt 1)],
      isFinite (s.valF v) = true ∧ valueOf (s.valF v) = (65535 : Int) * unitsPerOne := by
  have hf : (st [(0, 65535)] [(0, fneg oneF), (1, u2f 65535)]).flt 0 = fneg oneF := by decide +kernel
  have hv : ∀ v ∈ [Value.imm 65535, .reg (.int 0), .reg (.flt 1)],
      (st [(0, 65535)] [(0, fneg oneF), (1, u2f 65535)]).valF v = u2f 65535 := by decide +kernel
  refine ⟨by rw [hf]; decide, by rw [hf, valueOf_fneg, valueOf_oneF]; omega, fun v hm => ?_⟩
  rw [hv v hm]
  exact ⟨u2f_finite _, valueOf_u2f _⟩

/-- Both zeros hold the integer 0. -/
theorem witness_EpsilonSeparatesIntegers_zeros (neg : Bool) :
    isFinite (zeroF neg) = true ∧ valueOf (zeroF neg) = (0 : Int) * unitsPerOne :=
  ⟨by cases neg <;> decide, by rw [valueOf_zeroF, zero_mul]⟩

/-- The largest finite number, the least subnormal and a zero are finite. -/
theorem witness_finite : isFinite 0x7FEFFFFFFFFFFFFF = true ∧ isFinite 0x8000000000000001 = true ∧
    isFinite (zeroF true) = true := by decide

theorem witness_SumAndDifferenceAreCorrectlyRounded :
    isFinite 0x7FEFFFFFFFFFFFFF = true ∧ isFinite 0x0000000000000001 = true := by decide

theorem witness_ProductIsCorrectlyRounded :
    isFinite 0x7FEFFFFFFFFFFFFF = true ∧ isFinite 0x8000000000000001 = true := by decide

theorem witness_QuotientIsCorrectlyRounded :
    isFinite 0x7FEFFFFFFFFFFFFF = true ∧ isFinite 0x0000000000000001 = true ∧
    isZero 0x0000000000000001 = false := by decide

theorem witness_SpecialFloatResults :
    isNaN 0x7FF0000000000001 = true ∧ isInf (infF true) = true ∧ isZero (zeroF true) = true ∧
    isZero (zeroF false) = true ∧ isFinite 0x0000000000000001 = true ∧
    isZero 0x0000000000000001 = false ∧ isFinite 0xFFEFFFFFFFFFFFFF = true := by decide

/-- The largest finite number, a negative zero and both infinities as the other operand. -/
theorem witness_InfiniteOperandResults :
    isInf (infF true) = true ∧ isNaN 0x7FEFFFFFFFFFFFFF = false ∧ isInf 0x7FEFFFFFFFFFFFFF = false ∧
    isNaN (infF false) = false ∧ isNeg (infF true) ≠ isNeg (infF false) ∧
    isZero 0x0000000000000001 = false ∧ isFinite (zeroF true) = true ∧
    isNaN ((st [] [(0, infF false)]).flt 0) = false ∧ isInf ((st [] [(0, infF false)]).flt 0) = true ∧
    isNaN ((st [] [(0, infF false)]).valF (.imm 1)) = false ∧
    (st [] [(0, infF false)]).flt 0 ≠ (st [] [(0, infF false)]).valF (.imm 1) := by decide +kernel

theorem witness_FloatToIntegerTruncatesAndClamps :
    isNaN canonicalNaN = true ∧ isNaN (infF true) = false ∧ isNaN 0x40EFFFE000000000 = false := by decide

theorem witness_FloatToPixelTruncatesAndClamps :
    isNaN 0xFFF0000000000001 = true ∧ isNaN (infF false) = false ∧ isNaN 0xC1E0000000000000 = false := by
  decide

theorem witness_RoundedDistanceIsZeroOnlyForEqualValues :
    isFinite 0x0000000000000001 = true ∧ isFinite 0x0000000000000002 = true := by decide

theorem witness_NaNBitsAreUnobservable :
    SameUpToNaN ((running [.inc (.flt 0)]).setFlt 0 canonicalNaN)
      ((running [.inc (.flt 0)]).setFlt 0 0xFFF0000000000001) ∧
    (∃ t, step ((running [.inc (.flt 0)]).setFlt 0 canonicalNaN) = .next t) ∧
    step (running []).halt = .fault .runHalted := by
  refine ⟨⟨fun _ => rfl, fun k => ?_, rfl, rfl, rfl, rfl, rfl, rfl, rfl, rfl, rfl⟩, ⟨_, rfl⟩, rfl⟩
  by_cases hk : k = 0
  · subst hk
    exact .inr ⟨by decide, by decide⟩
  · exact .inl (by simp [State.flt_setFlt, hk])

end Sys2Proof.Tests
end

section
/-! The family `10_state.md`, part 1: an instruction as an action. What an instruction does is split in two:
the *action*, which is all it takes from the registers, and the action's effect on the state. Two executions
of an instruction are compared by comparing their actions once. -/

namespace Sys2Proof.Machine

/-! ### The action of an instruction -/

/-- A result on its way to a register: of the integer bank with its wrap condition, or of the float bank. -/
inductive Write
  | int (k : Fin 8) (r : U16 × Bool)
  | flt (k : Fin 8) (f : F64)

/-- The register a result goes to. -/
def Write.dest : Write → RegId
  | .int k _ => .int k
  | .flt k _ => .flt k

/-- The common shape of the arithmetic instructions (R160). -/
def Write.apply : Write → State → State
  | .int k r, s => s.putInt k r
  | .flt k f, s => s.putFlt k f

/-- What an instruction is about to do, its operands read. -/
inductive Action
  | toggle
  | move (x y : F64)
  | write (w : Write)
  | branch (p : Bool) (a : Addr)
  | fault
  | halt

/-- The effect of an action. Of the registers it reads none but the two that `move` has just written. -/
def Action.apply : Action → State → State
  | .toggle, s => { s with pen := !s.pen }.advance
  | .move x y, s => ((s.setFlt xReg x).setFlt yReg y).plot.advance
  | .write w, s => w.apply s
  | .branch p a, s => if p then s.jump a else s.advance
  | .fault, s => s.raise .divideByZero
  | .halt, s => s.halt

/-- The registers an action writes. -/
def Action.writes : Action → List RegId
  | .toggle => []
  | .move _ _ => [.flt xReg, .flt yReg]
  | .write w => [w.dest]
  | .branch _ _ => []
  | .fault => []
  | .halt => []

/-- The action's effect depends on the pen. -/
def Action.usesPen : Action → Bool
  | .toggle => true
  | .move _ _ => true
  | .write _ => false
  | .branch _ _ => false
  | .fault => false
  | .halt => false

/-- The result of `arith`, with the same arguments. -/
def State.result (s : State) (opi : U16 → U16 → U16 × Bool) (opf : F64 → F64 → F64) (rd : RegId) (bi : U16)
    (bf : F64) : Write :=
  match rd with
  | .int k => .int k (opi (s.int k) bi)
  | .flt k => .flt k (opf (s.flt k) bf)

/-- The action of an instruction in a state. -/
def State.action (s : State) : Instr → Action
  | .drw => .toggle
  | .fwd => .move (fadd (s.flt xReg) (dir s.heading).1) (fadd (s.flt yReg) (dir s.heading).2)
  | .sto rd v => .write (s.result (fun _ b => (b, false)) (fun _ b => b) rd (s.valI v) (s.valF v))
  | .inc rd => .write (s.result iadd fadd rd 1 oneF)
  | .dec rd => .write (s.result isub fsub rd 1 oneF)
  | .add rd v => .write (s.result iadd fadd rd (s.valI v) (s.valF v))
  | .sub rd v => .write (s.result isub fsub rd (s.valI v) (s.valF v))
  | .mul rd v => .write (s.result imul fmul rd (s.valI v) (s.valF v))
  | .div rd v =>
    if s.divByZero rd v then .fault else .write (s.result idiv fdiv rd (s.valI v) (s.valF v))
  | .jnz rd a => .branch (s.predJnz rd) a
  | .jeq rd v a => .branch (s.predJeq rd v) a
  | .jne rd v a => .branch (s.predJne rd v) a
  | .jgt rd v a => .branch (s.predJgt rd v) a
  | .jlt rd v a => .branch (s.predJlt rd v) a
  | .hlt => .halt

variable {s t : State} {i : Instr} {rd r : RegId}

theorem arith_eq_apply_result (opi : U16 → U16 → U16 × Bool) (opf : F64 → F64 → F64) (rd : RegId) (bi : U16)
    (bf : F64) (s : State) :
    arith opi opf rd bi bf s = .next ((s.result opi opf rd bi bf).apply s) := by
  cases rd with
  | int k => exact arith_int opi opf k bi bf
  | flt k => exact arith_flt opi opf k bi bf

/-- Every instruction is its action. -/
theorem exec_eq_apply_action (i : Instr) (s : State) : exec i s = .next ((s.action i).apply s) := by
  cases i with
  | drw | hlt | jnz rd a | jeq rd v a | jne rd v a | jgt rd v a | jlt rd v a => rfl
  | fwd => rw [exec, execFwd, State.moved]; rfl
  | sto rd v | inc rd | dec rd | add rd v | sub rd v | mul rd v =>
    simp only [exec, execSto, execInc, execDec, execAdd, execSub, execMul, arith_eq_apply_result, State.action,
      Action.apply]
  | div rd v =>
    rw [exec, execDiv, State.action]
    split
    · rfl
    · exact arith_eq_apply_result ..

/-! ### What an instruction's registers are -/

theorem mem_regsWritten_of_firstReg? (hi : firstReg? i = some rd) (hr : r ∈ regsWritten i) : r = rd := by
  cases i with
  | drw | fwd | hlt => cases hi
  | jnz _ _ | jeq _ _ _ | jne _ _ _ | jgt _ _ _ | jlt _ _ _ => cases hr
  | sto _ _ | inc _ | dec _ | add _ _ | sub _ _ | mul _ _ | div _ _ =>
    cases hi
    exact List.mem_singleton.mp hr

theorem valueRegs_subset_regsRead {v : Value} (hv : i.value? = some v) : valueRegs v ⊆ regsRead i := by
  cases i with
  | drw | fwd | hlt | inc _ | dec _ | jnz _ _ => cases hv
  | sto _ _ => cases hv; exact List.Subset.refl _
  | add _ _ | sub _ _ | mul _ _ | div _ _ | jeq _ _ _ | jne _ _ _ | jgt _ _ _ | jlt _ _ _ =>
    cases hv
    exact List.subset_cons_self _ _

/-- `STO` alone writes a register that it does not read (R25). -/
theorem eq_sto_of_written_of_not_read (hw : r ∈ regsWritten i) (hr : r ∉ regsRead i) :
    ∃ v, i = .sto r v := by
  cases i with
  | drw | hlt | jnz _ _ | jeq _ _ _ | jne _ _ _ | jgt _ _ _ | jlt _ _ _ => cases hw
  | fwd => exact absurd (List.mem_cons_of_mem _ hw) hr
  | sto rd v => exact ⟨v, by rw [List.mem_singleton.mp hw]⟩
  | inc _ | dec _ => exact absurd hw hr
  | add _ _ | sub _ _ | mul _ _ | div _ _ =>
    exact absurd (List.mem_singleton.mp hw ▸ List.mem_cons_self) hr

theorem withValue_value?_getD (i : Instr) (v : Value) : withValue i (i.value?.getD v) = i := by
  cases i <;> rfl

/-! ### What an action depends on -/

/-- The register holds the same in both states. -/
def SameReg (r : RegId) (s t : State) : Prop :=
  match r with
  | .int k => t.int k = s.int k
  | .flt k => t.flt k = s.flt k

/-- As an operand beside the first register `rd`, `w` is in `t` what `v` is in `s` (R124, R125). -/
def SameOperand (rd : RegId) (s t : State) (v w : Value) : Prop :=
  match rd with
  | .int _ => t.valI w = s.valI v
  | .flt _ => t.valF w = s.valF v

theorem sameOperand_of_sameReg {v : Value} (h : ∀ r ∈ valueRegs v, SameReg r s t) :
    SameOperand rd s t v v := by
  have hv : t.valI v = s.valI v ∧ t.valF v = s.valF v := by
    rcases v with n | (k | k)
    · exact ⟨rfl, rfl⟩
    · have hk : t.int k = s.int k := h _ (List.mem_singleton.mpr rfl)
      exact ⟨hk, congrArg u2f hk⟩
    · have hk : t.flt k = s.flt k := h _ (List.mem_singleton.mpr rfl)
      exact ⟨congrArg f2u hk, hk⟩
  cases rd with
  | int k => exact hv.1
  | flt k => exact hv.2

theorem result_congr {v w : Value} (opi : U16 → U16 → U16 × Bool) (opf : F64 → F64 → F64)
    (hr : SameReg rd s t) (hv : SameOperand rd s t v w) :
    t.result opi opf rd (t.valI w) (t.valF w) = s.result opi opf rd (s.valI v) (s.valF v) := by
  cases rd <;> simp only [SameReg, SameOperand] at hr hv <;> simp only [State.result, hr, hv]

theorem result_const_congr (opi : U16 → U16 → U16 × Bool) (opf : F64 → F64 → F64) (bi : U16) (bf : F64)
    (hr : SameReg rd s t) : t.result opi opf rd bi bf = s.result opi opf rd bi bf := by
  cases rd <;> simp only [SameReg] at hr <;> simp only [State.result, hr]

/-- `STO` does not read its first register (R161). -/
theorem result_sto_congr {v w : Value} (hv : SameOperand rd s t v w) :
    t.result (fun _ b => (b, false)) (fun _ b => b) rd (t.valI w) (t.valF w) =
      s.result (fun _ b => (b, false)) (fun _ b => b) rd (s.valI v) (s.valF v) := by
  cases rd <;> simp only [SameOperand] at hv <;> simp only [State.result, hv]

theorem compare_congr {v w : Value} (ci : U16 → U16 → Bool) (cf : F64 → F64 → Bool)
    (hr : SameReg rd s t) (hv : SameOperand rd s t v w) :
    t.compare ci cf rd w = s.compare ci cf rd v := by
  cases rd <;> simp only [SameReg, SameOperand] at hr hv <;> simp only [State.compare, hr, hv]

theorem predJnz_congr (hr : SameReg rd s t) : t.predJnz rd = s.predJnz rd := by
  cases rd <;> simp only [SameReg] at hr <;> simp only [State.predJnz, hr]

theorem divByZero_congr {v w : Value} (hv : SameOperand rd s t v w) :
    t.divByZero rd w = s.divByZero rd v := by
  cases rd <;> simp only [SameOperand] at hv <;> simp only [State.divByZero, hv]

/-- The action depends on the first register, where it is read at all, and on the operand as converted to that
register's bank: not on which operand it is, nor on the other bank (R124 to R127, R190). -/
theorem action_withValue {w : Value} (hi : firstReg? i = some rd) (hr : rd ∈ regsRead i → SameReg rd s t)
    (hv : ∀ v, i.value? = some v → SameOperand rd s t v w) : t.action (withValue i w) = s.action i := by
  cases i with
  | drw | fwd | hlt => cases hi
  | sto _ v =>
    cases hi
    exact congrArg Action.write (result_sto_congr (hv v rfl))
  | inc _ | dec _ =>
    cases hi
    exact congrArg Action.write (result_const_congr _ _ _ _ (hr List.mem_cons_self))
  | add _ v | sub _ v | mul _ v =>
    cases hi
    exact congrArg Action.write (result_congr _ _ (hr List.mem_cons_self) (hv v rfl))
  | div _ v =>
    cases hi
    rw [withValue, State.action, State.action, divByZero_congr (hv v rfl),
      result_congr _ _ (hr List.mem_cons_self) (hv v rfl)]
  | jnz _ a =>
    cases hi
    exact congrArg (Action.branch · a) (predJnz_congr (hr List.mem_cons_self))
  | jeq _ v a | jne _ v a | jgt _ v a | jlt _ v a =>
    cases hi
    exact congrArg (Action.branch · a) (compare_congr _ _ (hr List.mem_cons_self) (hv v rfl))

theorem action_congr_of_operands (hi : firstReg? i = some rd) (hr : rd ∈ regsRead i → SameReg rd s t)
    (hv : ∀ v, i.value? = some v → SameOperand rd s t v v) : t.action i = s.action i := by
  rw [← action_withValue (w := i.value?.getD (.imm 0)) hi hr, withValue_value?_getD]
  intro v hiv
  rw [hiv]
  exact hv v hiv

/-- The action depends on nothing but the registers of the "reads" column (R25). -/
theorem action_congr (h : ∀ r ∈ regsRead i, SameReg r s t) : t.action i = s.action i := by
  cases hi : firstReg? i with
  | some rd =>
    exact action_congr_of_operands hi (h rd) fun v hv =>
      sameOperand_of_sameReg fun r hr => h r (valueRegs_subset_regsRead hv hr)
  | none =>
    cases i with
    | drw | hlt => rfl
    | fwd =>
      have hh : t.int hReg = s.int hReg := h (.int hReg) (by simp [regsRead])
      have hx : t.flt xReg = s.flt xReg := h (.flt xReg) (by simp [regsRead])
      have hy : t.flt yReg = s.flt yReg := h (.flt yReg) (by simp [regsRead])
      simp only [State.action, State.heading, hh, hx, hy]
    | sto _ _ | inc _ | dec _ | add _ _ | sub _ _ | mul _ _ | div _ _ | jnz _ _ | jeq _ _ _ | jne _ _ _
    | jgt _ _ _ | jlt _ _ _ => cases hi

theorem sameReg_setInt {k : Fin 8} {v : U16} (h : r ≠ .int k) : SameReg r s (s.setInt k v) := by
  cases r with
  | int j => exact (State.int_setInt s k j v).trans (if_neg fun e => h (congrArg RegId.int e))
  | flt j => exact State.flt_setInt s k j v

theorem sameReg_setFlt {k : Fin 8} {v : F64} (h : r ≠ .flt k) : SameReg r s (s.setFlt k v) := by
  cases r with
  | int j => exact State.int_setFlt s k j v
  | flt j => exact (State.flt_setFlt s k j v).trans (if_neg fun e => h (congrArg RegId.flt e))

theorem sameReg_pen (r : RegId) (s : State) (b : Bool) : SameReg r s { s with pen := b } := by
  cases r <;> rfl

/-! ### What an action writes and what it leaves -/

@[simp] theorem dest_result (opi : U16 → U16 → U16 × Bool) (opf : F64 → F64 → F64) (rd : RegId) (bi : U16)
    (bf : F64) (s : State) : (s.result opi opf rd bi bf).dest = rd := by
  cases rd <;> rfl

/-- The "writes" column of R25; a `DIV` that faults writes nothing. -/
theorem writes_action_subset (i : Instr) (s : State) : (s.action i).writes ⊆ regsWritten i := by
  cases i with
  | drw | fwd | hlt | jnz _ _ | jeq _ _ _ | jne _ _ _ | jgt _ _ _ | jlt _ _ _ => exact List.Subset.refl _
  | sto _ _ | inc _ | dec _ | add _ _ | sub _ _ | mul _ _ =>
    simp [State.action, Action.writes, regsWritten]
  | div rd v =>
    rw [State.action]
    split
    · exact List.nil_subset _
    · simp [Action.writes, regsWritten]

theorem usesPen_action (hd : i ≠ .drw) (hf : i ≠ .fwd) (s : State) : (s.action i).usesPen = false := by
  cases i with
  | drw => exact absurd rfl hd
  | fwd => exact absurd rfl hf
  | div rd v => rw [State.action]; split <;> rfl
  | sto _ _ | inc _ | dec _ | add _ _ | sub _ _ | mul _ _ | jnz _ _ | jeq _ _ _ | jne _ _ _ | jgt _ _ _
  | jlt _ _ _ | hlt => rfl

theorem putInt_setInt_self (k : Fin 8) (v : U16) (p : U16 × Bool) :
    (s.setInt k v).putInt k p = s.putInt k p := by
  rw [State.putInt, setInt_setInt, State.putInt]

theorem putFlt_setFlt_self (k : Fin 8) (v f : F64) : (s.setFlt k v).putFlt k f = s.putFlt k f := by
  rw [State.putFlt, setFlt_setFlt, State.putFlt]

theorem plot_setInt (k : Fin 8) (v : U16) : (s.setInt k v).plot = s.plot.setInt k v := by
  rw [State.plot, State.plot, State.setInt_pen]
  split <;> rfl

/-- An action does the same whatever an integer register holds that it does not write. -/
theorem apply_setInt {a : Action} {k : Fin 8} (h : .int k ∉ a.writes) (v : U16) :
    a.apply (s.setInt k v) = (a.apply s).setInt k v := by
  cases a with
  | toggle | fault | halt => rfl
  | move x y =>
    exact congrArg State.advance (plot_setInt (s := (s.setFlt xReg x).setFlt yReg y) k v)
  | branch p a => cases p <;> rfl
  | write w =>
    cases w with
    | flt j f => rfl
    | int j p =>
      have hkj : k ≠ j := fun e => h (List.mem_singleton.mpr (congrArg RegId.int e))
      simp only [Action.apply, Write.apply, State.putInt]
      rw [setInt_comm hkj, emitWrap_setInt]
      rfl

/-- An action does the same whatever a float register holds that it does not write. -/
theorem apply_setFlt {a : Action} {k : Fin 8} (h : .flt k ∉ a.writes) (v : F64) :
    a.apply (s.setFlt k v) = (a.apply s).setFlt k v := by
  cases a with
  | toggle | fault | halt => rfl
  | move x y =>
    simp only [Action.writes, List.mem_cons, RegId.flt.injEq, List.not_mem_nil, or_false, not_or] at h
    obtain ⟨hx, hy⟩ := h
    simp only [Action.apply]
    rw [setFlt_comm hx, setFlt_comm hy, plot_setFlt v (Ne.symm hx) (Ne.symm hy)]
    rfl
  | branch p a => cases p <;> rfl
  | write w =>
    cases w with
    | int j p => exact congrArg State.advance (emitWrap_setFlt (s := s.setInt j p.1) k v p.2)
    | flt j f =>
      have hkj : k ≠ j := fun e => h (List.mem_singleton.mpr (congrArg RegId.flt e))
      simp only [Action.apply, Write.apply, State.putFlt]
      rw [setFlt_comm hkj]
      rfl

/-- The pen is carried along by an action that does not use it. -/
theorem apply_pen {a : Action} (h : a.usesPen = false) (s : State) (b : Bool) :
    a.apply { s with pen := b } = { a.apply s with pen := b } := by
  cases a with
  | toggle | move x y => cases h
  | fault | halt => rfl
  | branch p a => cases p <;> rfl
  | write w =>
    cases w with
    | flt k f => rfl
    | int k p =>
      obtain ⟨n, wrapped⟩ := p
      cases wrapped <;> rfl

@[simp] theorem State.int_plot (s : State) (k : Fin 8) : s.plot.int k = s.int k := by
  rw [State.plot]
  split <;> rfl

@[simp] theorem State.flt_plot (s : State) (k : Fin 8) : s.plot.flt k = s.flt k := by
  rw [State.plot]
  split <;> rfl

end Sys2Proof.Machine
end

section
/-! The family `10_state.md`, part 2: the output streams, the pen and the program store along a run. -/

namespace Sys2Proof.Machine

variable {s t : State} {i : Instr}

/-! ### Output streams (R51) -/

/-- Both output streams of `t` are those of `s` with events added at the end. -/
def OutputsGrow (s t : State) : Prop := s.pixout <+: t.pixout ∧ s.diagout <+: t.diagout

theorem outputsGrow_refl (s : State) : OutputsGrow s s := ⟨List.prefix_rfl, List.prefix_rfl⟩

theorem outputsGrow_trans (s t u : State) (h : OutputsGrow s t) (h' : OutputsGrow t u) : OutputsGrow s u :=
  ⟨h.1.trans h'.1, h.2.trans h'.2⟩

theorem outputsGrow_effect (h : Effect i s t) : OutputsGrow s t := by
  constructor
  · obtain ⟨hp, -⟩ | ⟨p, hp, -⟩ := pix_effect h
    · exact hp ▸ List.prefix_rfl
    · exact hp ▸ List.prefix_append _ _
  · obtain hd | ⟨hd, -⟩ := diag_effect h
    · exact hd ▸ List.prefix_rfl
    · exact hd ▸ List.prefix_append _ _

theorem outputsGrow_step (s t : State) (h : step s = .next t) : OutputsGrow s t := by
  obtain ⟨-, ⟨-, rfl⟩ | ⟨i, -, he⟩⟩ := step_cases h
  · exact outputsGrow_refl s
  · exact outputsGrow_effect (exec_effect he)

theorem endOfStream_iff (s : State) :
    s.endOfStream = true ↔ s.status = .halted ∨ ∃ c info, s.status = .faulted c info := by
  rw [State.endOfStream, State.terminated]
  cases s.status <;> simp

/-- Settles O24: both streams grow at every step, hence along every run. -/
theorem outputStreamsOnlyGrow : Obligations.OutputStreamsOnlyGrow :=
  ⟨run_induction outputsGrow_refl outputsGrow_trans outputsGrow_step, State.emitPixel_pixout,
    endOfStream_iff⟩

/-! ### The pen (R32) -/

theorem pen_effect (h : Effect i s t) : t.pen = if i = .drw then !s.pen else s.pen := by
  cases h with
  | toggle hi => rw [if_pos hi]; rfl
  | move hi =>
    obtain ⟨-, -, -, -, -, hpen, -⟩ := fwd_spec (s := s)
    subst hi
    exact hpen
  | putInt k r _ _ hd =>
    obtain ⟨-, -, -, -, -, hpen, -⟩ := putInt_spec (s := s) k r
    rw [if_neg hd, hpen]
  | putFlt k f _ _ hd =>
    obtain ⟨-, -, -, -, -, hpen, -⟩ := putFlt_spec (s := s) k f
    rw [if_neg hd, hpen]
  | branch p a _ _ hd => rw [if_neg hd]; cases p <;> rfl
  | fault k v hi => subst hi; rfl
  | halt hi => subst hi; rfl

/-- Every instruction has the same action whatever the pen is: what of the pen shows is in the action's effect. -/
theorem exec_pen (i : Instr) (s : State) (b : Bool) :
    exec i { s with pen := b } = .next ((s.action i).apply { s with pen := b }) := by
  rw [exec_eq_apply_action, action_congr fun r _ => sameReg_pen r s b]

theorem exec_pen_of_ne_fwd (hf : i ≠ .fwd) (h : exec i s = .next t) (b : Bool) :
    exec i { s with pen := b } = .next { t with pen := if i = .drw then !b else b } := by
  rw [exec_eq_apply_action, Host.Outcome.next.injEq] at h
  subst h
  rw [exec_pen]
  by_cases hd : i = .drw
  · subst hd; rfl
  · rw [if_neg hd, apply_pen (usesPen_action hd hf s)]

/-- The registers after `FWD` do not depend on the pen, and a pen that is up lets no event out. -/
theorem exec_fwd_pen (h : exec .fwd s = .next t) (b : Bool) :
    ∃ t', exec .fwd { s with pen := b } = .next t' ∧ (∀ k, t'.int k = t.int k) ∧
      (∀ k, t'.flt k = t.flt k) ∧ (b = false → t'.pixout = s.pixout) := by
  rw [exec_eq_apply_action, Host.Outcome.next.injEq] at h
  subst h
  refine ⟨_, exec_pen .fwd s b, fun k => ?_, fun k => ?_, ?_⟩
  · simp only [State.action, Action.apply, State.int_advance, State.int_plot, State.int_setFlt]
    rfl
  · simp only [State.action, Action.apply, State.flt_advance, State.flt_plot, State.flt_setFlt]
    rfl
  · rintro rfl
    rfl

/-- Settles O25, by the action of an instruction, which does not depend on the pen. -/
theorem penIsWrittenByDrwAndReadByFwd : Obligations.PenIsWrittenByDrwAndReadByFwd :=
  ⟨rfl, fun _ _ _ h => pen_effect (exec_effect h), fun _ _ _ b hf h => exec_pen_of_ne_fwd hf h b,
    fun _ _ b h => exec_fwd_pen h b⟩

/-! ### The instruction store (R38) -/

theorem sameProgram_refl (s : State) : SameProgram s s := ⟨rfl, rfl, rfl, rfl⟩

theorem sameProgram_trans (s t u : State) (h : SameProgram s t) (h' : SameProgram t u) : SameProgram s u := by
  obtain ⟨hp, hv, hw, hh⟩ := h
  obtain ⟨hp', hv', hw', hh'⟩ := h'
  exact ⟨hp'.trans hp, hv'.trans hv, hw'.trans hw, hh'.trans hh⟩

theorem sameProgram_run (n : Nat) (s t : State) (h : core.run n s = .next t) : SameProgram s t :=
  run_induction sameProgram_refl sameProgram_trans (fun _ _ => sameProgram_step) n s t h

theorem load_prog {buf : List Byte} (h : load buf = .ok s) : decodeFrom 5 0 (buf.drop 5) = .ok s.prog := by
  obtain ⟨img, hd, rfl⟩ := load_ok h
  obtain ⟨-, -, -, -, -, hprog, -⟩ := decodeProgram_ok hd
  exact hprog

/-- Settles O26: no step writes the store or the header, so a run keeps what the decoder put there. -/
theorem programIsImmutableDuringARun : Obligations.ProgramIsImmutableDuringARun := by
  refine ⟨sameProgram_run, fun buf n s t hl hr => ?_⟩
  obtain ⟨hp, -⟩ := sameProgram_run n s t hr
  rw [hp]
  exact load_prog hl

end Sys2Proof.Machine
end

section
/-! The family `10_state.md`, part 3: the registers an instruction reads and writes, and the two banks. -/

namespace Sys2Proof.Machine

variable {s t : State} {i : Instr}

/-! ### Registers read and written (R25) -/

/-- Another value in an integer register that does not enter the action and that the instruction does not
write. -/
theorem exec_setInt_of_action_eq {k : Fin 8} {v : U16} (h : exec i s = .next t)
    (ha : (s.setInt k v).action i = s.action i) (hw : .int k ∉ regsWritten i) :
    exec i (s.setInt k v) = .next (t.setInt k v) := by
  rw [exec_eq_apply_action, Host.Outcome.next.injEq] at h
  rw [exec_eq_apply_action, ha, apply_setInt fun hm => hw (writes_action_subset i s hm), h]

/-- Another value in a float register that does not enter the action and that the instruction does not
write. -/
theorem exec_setFlt_of_action_eq {k : Fin 8} {v : F64} (h : exec i s = .next t)
    (ha : (s.setFlt k v).action i = s.action i) (hw : .flt k ∉ regsWritten i) :
    exec i (s.setFlt k v) = .next (t.setFlt k v) := by
  rw [exec_eq_apply_action, Host.Outcome.next.injEq] at h
  rw [exec_eq_apply_action, ha, apply_setFlt fun hm => hw (writes_action_subset i s hm), h]

theorem exec_setInt_of_not_read {k : Fin 8} (v : U16) (h : exec i s = .next t) (hr : .int k ∉ regsRead i) :
    exec i (s.setInt k v) = .next (if .int k ∈ regsWritten i then t else t.setInt k v) := by
  have ha : (s.setInt k v).action i = s.action i :=
    action_congr fun r hm => sameReg_setInt fun e => hr (e ▸ hm)
  split
  case isTrue hw =>
    obtain ⟨u, rfl⟩ := eq_sto_of_written_of_not_read hw hr
    rw [← h, exec_eq_apply_action, ha, exec_eq_apply_action]
    exact congrArg Host.Outcome.next (putInt_setInt_self k v _)
  case isFalse hw => exact exec_setInt_of_action_eq h ha hw

theorem exec_setFlt_of_not_read {k : Fin 8} (v : F64) (h : exec i s = .next t) (hr : .flt k ∉ regsRead i) :
    exec i (s.setFlt k v) = .next (if .flt k ∈ regsWritten i then t else t.setFlt k v) := by
  have ha : (s.setFlt k v).action i = s.action i :=
    action_congr fun r hm => sameReg_setFlt fun e => hr (e ▸ hm)
  split
  case isTrue hw =>
    obtain ⟨u, rfl⟩ := eq_sto_of_written_of_not_read hw hr
    rw [← h, exec_eq_apply_action, ha, exec_eq_apply_action]
    exact congrArg Host.Outcome.next (putFlt_setFlt_self k v _)
  case isFalse hw => exact exec_setFlt_of_action_eq h ha hw

/-- An instruction of a running machine that ends in a fault has written no register (R232). -/
theorem int_of_exec_faults {c : Cause} {info : Nat} (hr : s.status = .running) (h : exec i s = .next t)
    (hf : t.status = .faulted c info) (k : Fin 8) : t.int k = s.int k := by
  obtain ⟨-, hs⟩ | ⟨-, -, -, hs⟩ | ⟨rfl, -⟩ | ⟨rfl, -⟩ := pc_effect (exec_effect h)
  · rw [hs, hr] at hf; cases hf
  · rw [hs, hr] at hf; cases hf
  · cases hf
  · exact State.int_raise s _ k

/-- Settles O29: the action depends on the registers read alone, and its effect carries every register along
that it does not write. -/
theorem registersReadAndWrittenAreTheListedOnes : Obligations.RegistersReadAndWrittenAreTheListedOnes :=
  ⟨fun _ _ _ h => regs_effect (exec_effect h), fun _ _ _ _ v h hr => exec_setInt_of_not_read v h hr,
    fun _ _ _ _ v h hr => exec_setFlt_of_not_read v h hr,
    fun _ _ k _ _ _ hr h hf => int_of_exec_faults hr h hf k⟩

/-! ### The banks (R26, R124 to R127) -/

/-- `ValI` sees a float register through `F2U` alone (R126). -/
theorem valI_setFlt_of_f2u_eq {j : Fin 8} {v : F64} (hv : f2u v = f2u (s.flt j)) (u : Value) :
    (s.setFlt j v).valI u = s.valI u := by
  rcases u with n | (l | l)
  · rfl
  · rfl
  · simp only [State.valI, State.flt_setFlt]
    split
    case isTrue e => rw [hv, e]
    case isFalse => rfl

theorem exec_setFlt_of_f2u_eq {k j : Fin 8} {v : F64} (hi : firstReg? i = some (.int k))
    (h : exec i s = .next t) (hv : f2u v = f2u (s.flt j)) : exec i (s.setFlt j v) = .next (t.setFlt j v) := by
  refine exec_setFlt_of_action_eq h (action_congr_of_operands hi (fun _ => sameReg_setFlt nofun) ?_) ?_
  · exact fun u _ => valI_setFlt_of_f2u_eq hv u
  · exact fun hm => nomatch mem_regsWritten_of_firstReg? hi hm

/-- Another operand that the first register's bank takes as the same value. -/
theorem exec_withValue {rd : RegId} {v w : Value} (hi : firstReg? i = some rd) (hv : i.value? = some v)
    (h : SameOperand rd s s v w) : exec i s = exec (withValue i w) s := by
  have ha : s.action (withValue i w) = s.action i := by
    refine action_withValue hi (fun _ => by cases rd <;> rfl) fun u hu => ?_
    rw [hv, Option.some.injEq] at hu
    exact hu ▸ h
  rw [exec_eq_apply_action, exec_eq_apply_action, ha]

/-- Settles O30: the action sees the operand only as converted to the first register's bank. -/
theorem banksDoNotAlias : Obligations.BanksDoNotAlias := by
  refine ⟨fun i s t h hw j => ?_, fun i s t h hw j => ?_, State.flt_setInt, State.int_setFlt,
    fun i s t k j v hi h hv => exec_setFlt_of_f2u_eq hi h hv, fun i s k j hi hv => exec_withValue hi hv rfl,
    fun i s k j hi hv => ⟨exec_withValue hi hv rfl, fun l hl => exec_withValue hi hv hl⟩,
    fun _ _ => rfl, fun _ _ => rfl⟩
  · obtain ⟨-, hf⟩ := regs_effect (exec_effect h)
    exact hf j (hw j)
  · obtain ⟨hi, -⟩ := regs_effect (exec_effect h)
    exact hi j (hw j)

end Sys2Proof.Machine
end

section
/-! The family `30_encoding.md`: bit 7 of the opcode byte (R96, D8). What the decoder of each format reads is
said as the list of the bytes it looked at, so that an instruction's length and its bytes come from one lemma. -/

namespace Sys2Proof

/-! ### The bytes of a decoded instruction (R84, R94) -/

/-- The first `n` bytes, one by one. -/
def bytesRead (bs : List Byte) (n : Nat) : List Byte := (List.range n).map (byteAt bs)

@[simp] theorem bytesRead_length (bs : List Byte) (n : Nat) : (bytesRead bs n).length = n := by
  simp [bytesRead]

theorem bytesRead_add (bs : List Byte) (n k : Nat) :
    bytesRead bs (n + k) = bytesRead bs n ++ (List.range k).map (fun j => byteAt bs (n + j)) := by
  simp [bytesRead, List.range_add]

theorem bytesRead_add_two (bs : List Byte) (n : Nat) :
    bytesRead bs (n + 2) = bytesRead bs n ++ le16Bytes (le16 bs n) := by
  rw [bytesRead_add, le16, le16Bytes_append]
  rfl

theorem take_eq_bytesRead {bs : List Byte} {n : Nat} (h : n ≤ bs.length) : bs.take n = bytesRead bs n := by
  induction n with
  | zero => rfl
  | succ n ih =>
    have hn : bs[n] = byteAt bs n := (List.getD_eq_getElem bs 0 h).symm
    rw [List.take_succ_eq_append_getElem h, ih (Nat.le_of_lt h), bytesRead_add, hn]
    rfl

theorem decodeR_ok {c : Nat} {bs : List Byte} {mk : RegId → Instr} {i : Instr} (h : decodeR c bs mk = .ok i) :
    ∃ rd, i = mk rd ∧ bytesRead bs 2 = [byteAt bs 0, byteOfReg rd] := by
  obtain ⟨rd, hr, rfl⟩ := map_eq_ok h
  exact ⟨rd, rfl, by rw [decodeReg_ok hr]; rfl⟩

theorem decodeRA_ok {c : Nat} {bs : List Byte} {mk : RegId → Addr → Instr} {i : Instr}
    (h : decodeRA c bs mk = .ok i) :
    ∃ rd a, i = mk rd a ∧ bytesRead bs 4 = byteAt bs 0 :: byteOfReg rd :: le16Bytes a := by
  obtain ⟨rd, hr, rfl⟩ := map_eq_ok h
  exact ⟨rd, _, rfl, by rw [bytesRead_add_two, decodeReg_ok hr]; rfl⟩

theorem bytesRead_of_decodeRV {c : Nat} {bs : List Byte} {mk : RegId → Value → Instr} {i : Instr} {m : Mnemonic}
    (hm : m.opc = opcField (byteAt bs 0)) (h : decodeRV c bs mk = .ok i) :
    ∃ rd v, i = mk rd v ∧
      bytesRead bs (2 + valueLen .RV (vregField (byteAt bs 0))) = encodeRV m rd v := by
  obtain ⟨rd, v, rfl, hrd, hv, he⟩ := decodeRV_ok h
  refine ⟨rd, v, rfl, ?_⟩
  rw [encodeRV, he, hrd, hv, opcodeByte_of_fields hm, bytesRead_add]
  rfl

theorem bytesRead_of_decodeRVA {c : Nat} {bs : List Byte} {mk : RegId → Value → Addr → Instr} {i : Instr}
    {m : Mnemonic} (hm : m.opc = opcField (byteAt bs 0)) (h : decodeRVA c bs mk = .ok i) :
    ∃ rd v a, i = mk rd v a ∧
      bytesRead bs (2 + valueLen .RVA (vregField (byteAt bs 0)) + 2) = encodeRV m rd v ++ le16Bytes a := by
  obtain ⟨rd, v, rfl, he⟩ := bytesRead_of_decodeRV hm h
  exact ⟨rd, v, _, rfl, by rw [bytesRead_add_two, ← he]; rfl⟩

/-! ### Bit 7 (R96; the spec's D8) -/

/-- The bytes are `i`'s canonical encoding, or that with bit 7 set where `i` has no Value operand. -/
def EncodesUpToBit7 (bs : List Byte) (i : Instr) : Prop :=
  bs = encode i ∨ (i.value? = none ∧ ∃ b tl, encode i = b :: tl ∧ bs = (b ||| 0x80) :: tl)

theorem length_of_encodesUpToBit7 {bs : List Byte} {i : Instr} (h : EncodesUpToBit7 bs i) :
    bs.length = (encode i).length := by
  obtain rfl | ⟨-, b, tl, he, rfl⟩ := h
  · rfl
  · rw [he]
    rfl

/-- Without a Value operand every byte with the opcode in its low bits will do. -/
theorem encodesUpToBit7_of_no_value {i : Instr} {m : Mnemonic} {b : Byte} {tl : List Byte}
    (hm : m.opc = opcField b) (hv : i.value? = none) (he : encode i = opcodeByte m false :: tl) :
    EncodesUpToBit7 (b :: tl) i := by
  obtain rfl | rfl := opcodeByte_bit7 hm
  · exact .inl he.symm
  · exact .inr ⟨hv, _, tl, he, rfl⟩

theorem encodesUpToBit7_of_decodeOperands {m : Mnemonic} {c : Nat} {bs : List Byte} {i : Instr}
    (hm : m.opc = opcField (byteAt bs 0)) (h : decodeOperands m c bs = .ok i) :
    EncodesUpToBit7 (bytesRead bs (instrLen m.format (vregField (byteAt bs 0)))) i := by
  cases m with
  | drw | fwd | hlt =>
    cases h
    exact encodesUpToBit7_of_no_value hm rfl rfl
  | inc | dec =>
    obtain ⟨rd, rfl, hb⟩ := decodeR_ok h
    exact hb ▸ encodesUpToBit7_of_no_value hm rfl rfl
  | jnz =>
    obtain ⟨rd, a, rfl, hb⟩ := decodeRA_ok h
    exact hb ▸ encodesUpToBit7_of_no_value hm rfl rfl
  | sto | add | sub | mul | div =>
    obtain ⟨rd, v, rfl, hb⟩ := bytesRead_of_decodeRV hm h
    exact .inl hb
  | jeq | jne | jgt | jlt =>
    obtain ⟨rd, v, a, rfl, hb⟩ := bytesRead_of_decodeRVA hm h
    exact .inl hb

theorem encodesUpToBit7_of_decodeOne {c n : Nat} {i : Instr} {bs : List Byte}
    (h : decodeOne c bs = .ok (n, i)) : n ≤ bs.length ∧ EncodesUpToBit7 (bs.take n) i := by
  obtain ⟨m, hm, rfl, hl, ho⟩ := decodeOne_ok h
  exact ⟨hl, take_eq_bytesRead hl ▸ encodesUpToBit7_of_decodeOperands hm ho⟩

theorem opcodeByte_false_or_bit7 (m : Mnemonic) : opcodeByte m false ||| 0x80 = opcodeByte m true := by
  cases m <;> decide

theorem decodeR_encode (c : Nat) (b : Byte) (rd : RegId) (rest : List Byte) (mk : RegId → Instr) :
    decodeR c ([b, byteOfReg rd] ++ rest) mk = .ok (mk rd) := by
  have h1 : byteAt ([b, byteOfReg rd] ++ rest) 1 = byteOfReg rd := rfl
  rw [decodeR, h1, decodeReg_byteOfReg]
  rfl

/-- Format `RA` looks at no bit of the opcode byte. -/
theorem decodeRA_cons (c : Nat) (b b' : Byte) (tl : List Byte) (mk : RegId → Addr → Instr) :
    decodeRA c (b :: tl) mk = decodeRA c (b' :: tl) mk := rfl

theorem decodeOne_encode_or_bit7 (c : Nat) {i : Instr} {b : Byte} {tl : List Byte} (rest : List Byte)
    (hv : i.value? = none) (he : encode i = b :: tl) :
    decodeOne c (((b ||| 0x80) :: tl) ++ rest) = .ok ((encode i).length, i) := by
  cases i with
  | drw | fwd | hlt =>
    cases he
    exact decodeOne_of_operands (congrArg (· :: []) (opcodeByte_false_or_bit7 _)) rfl rfl
  | inc rd | dec rd =>
    cases he
    exact decodeOne_of_operands (congrArg (· :: [_]) (opcodeByte_false_or_bit7 _)) rfl (decodeR_encode ..)
  | jnz rd a =>
    cases he
    refine decodeOne_of_operands (congrArg (· :: _) (opcodeByte_false_or_bit7 _)) rfl ?_
    exact (decodeRA_cons ..).trans (decodeRA_encode c .jnz rd a rest .jnz)
  | sto _ _ | add _ _ | sub _ _ | mul _ _ | div _ _ | jeq _ _ _ | jne _ _ _ | jgt _ _ _ | jlt _ _ _ => cases hv

/-- Settles O8: the bytes that decode are the instruction's encoding up to bit 7 (per format), and without a
Value operand no decoder of operands looks at bit 7. -/
theorem bitSevenIsIgnoredExactlyWithoutAValue : Obligations.BitSevenIsIgnoredExactlyWithoutAValue := by
  refine ⟨fun c n i bs h => ?_, fun c i b tl rest hv he => decodeOne_encode_or_bit7 c rest hv he⟩
  obtain ⟨hl, he⟩ := encodesUpToBit7_of_decodeOne h
  have hn : n = (encode i).length := by
    rw [← length_of_encodesUpToBit7 he, List.length_take, Nat.min_eq_left hl]
  exact ⟨hl, hn, he⟩

end Sys2Proof
end

section
/-! The family `40_execution_loop.md`, part 1: what a step emits, and the instructions that raise and record
nothing. -/

namespace Sys2Proof.Machine

variable {s t : State} {i : Instr}

/-! ### Events of a step (R123) -/

/-- Settles O23: a step past the end emits nothing, and any other emits what its instruction's effect does. -/
theorem stepEmitsAtMostOneEvent : Obligations.StepEmitsAtMostOneEvent := by
  intro s t h
  obtain ⟨-, ⟨hf, rfl⟩ | ⟨i, hf, he⟩⟩ := step_cases h
  · exact ⟨.inl rfl, .inl rfl, .inl rfl, iff_of_false (by simp) (by simp [hf])⟩
  · rw [hf, Option.some.injEq]
    obtain ⟨hp, hn⟩ | ⟨p, hp, -, hi, hpen, hd⟩ := pix_effect (exec_effect he)
    · have hd : t.diagout = s.diagout ∨ ∃ d, t.diagout = s.diagout ++ [d] :=
        (diag_effect (exec_effect he)).imp_right fun ⟨hd, _⟩ => ⟨_, hd⟩
      exact ⟨.inl hp, hd, .inl hp, iff_of_false (by simp [hp]) hn⟩
    · exact ⟨.inr ⟨p, hp⟩, .inl hd, .inr hd, iff_of_true ⟨p, hp⟩ ⟨hi, hpen⟩⟩

/-! ### No diagnostic and no fault without an integer destination (R134) -/

/-- A diagnostic and a fault both need an integer register to write. -/
theorem silent_effect (h : Effect i s t) (hw : ∀ k, .int k ∉ regsWritten i) :
    t.diagout = s.diagout ∧ (i ≠ .hlt → t.status = s.status) := by
  cases h with
  | toggle hi => exact ⟨rfl, fun _ => rfl⟩
  | move hi =>
    obtain ⟨-, -, -, hdiag, -, -, hstatus, -⟩ := fwd_spec (s := s)
    exact ⟨hdiag, fun _ => hstatus⟩
  | putInt k r hk => exact absurd (hk ▸ List.mem_singleton.mpr rfl) (hw k)
  | putFlt k f =>
    obtain ⟨-, hdiag, -, -, -, -, hstatus, -⟩ := putFlt_spec (s := s) k f
    exact ⟨hdiag, fun _ => hstatus⟩
  | branch p a => cases p <;> exact ⟨rfl, fun _ => rfl⟩
  | fault k v hi => exact absurd (hi ▸ List.mem_singleton.mpr rfl) (hw k)
  | halt hi => exact ⟨rfl, fun hh => absurd hi hh⟩

/-! ### Arithmetic on a float register (R160, R162 to R167) -/

theorem putsFlt_of_exec {k : Fin 8} {f : F64} (h : exec i s = .next (s.putFlt k f)) :
    ∃ t, exec i s = .next t ∧ PutsFlt s t k f :=
  ⟨_, h, putFlt_spec k f⟩

/-- A `DIV` to a float register never faults (R167). -/
theorem exec_div_flt (s : State) (k : Fin 8) (v : Value) :
    exec (.div (.flt k) v) s = .next (s.putFlt k (fdiv (s.flt k) (s.valF v))) := by
  rw [exec, execDiv, State.divByZero, if_neg Bool.false_ne_true, arith_flt]

end Sys2Proof.Machine
end

section
/-! The family `40_execution_loop.md`, part 2: binary64 on infinities, zeros and NaNs (R131). -/

namespace Sys2Proof.Machine

variable {a b : F64}

/-! ### Sums and absolute values with an infinity -/

/-- A sum with an infinity, none of the two cancelling the other. -/
theorem fadd_inf (ha : isInf a = true) (hb : isNaN b = false) (h : isInf b = true → isNeg a = isNeg b) :
    fadd a b = a ∧ fadd b a = a := by
  refine ⟨sumWith_inf_left _ ha hb h, ?_⟩
  rcases isFinite_or b with hf | hi | hn
  · exact sumWith_inf_right _ hf ha
  · have hba : b = a := by rw [eq_infF hi, ← h hi, ← eq_infF ha]
    rw [hba]
    exact sumWith_inf_left _ ha (not_nan_of_inf ha) fun _ => rfl
  · rw [hb] at hn
    cases hn

theorem fadd_opposite_infs (ha : isInf a = true) (hb : isInf b = true) (h : isNeg a ≠ isNeg b) :
    fadd a b = nanResult .add a b :=
  sumWith_opposite_infs _ ha hb h

theorem fsub_equal_infs (ha : isInf a = true) (hb : isInf b = true) (h : isNeg a = isNeg b) :
    fsub a b = nanResult .sub a b := by
  refine sumWith_opposite_infs _ ha ((isInf_fneg b).trans hb) ?_
  rw [isNeg_fneg, h]
  exact (Bool.not_ne_self _).symm

theorem fabs_inf (ha : isInf a = true) : fabs a = infF false := by
  have hi : isInf (fabs a) = true := by rwa [isInf, magBits_fabs]
  rw [eq_infF hi, isNeg_fabs]

/-! ### Products and quotients -/

theorem fmul_inf (ha : isInf a = true) (hb : isNaN b = false) (hz : isZero b = false) :
    fmul a b = infF (isNeg a != isNeg b) ∧ fmul b a = infF (isNeg a != isNeg b) := by
  constructor
  · simp [fmul, not_nan_of_inf ha, hb, ha, not_zero_of_inf ha, hz]
  · simp [fmul, not_nan_of_inf ha, hb, ha, not_zero_of_inf ha, hz, bne_comm]

theorem fdiv_nan (h : isNaN a = true ∨ isNaN b = true) : fdiv a b = nanResult .div a b := by
  rw [fdiv, if_pos (by simpa using h)]

theorem fdiv_inf_finite (ha : isInf a = true) (hb : isFinite b = true) :
    fdiv a b = infF (isNeg a != isNeg b) := by
  simp [fdiv, not_nan_of_inf ha, not_nan_of_finite hb, ha, not_inf_of_finite hb]

theorem fdiv_finite_inf (ha : isFinite a = true) (hb : isInf b = true) :
    fdiv a b = zeroF (isNeg a != isNeg b) := by
  simp [fdiv, not_nan_of_finite ha, not_nan_of_inf hb, not_inf_of_finite ha, hb]

theorem fdiv_finite_zero (ha : isFinite a = true) (hb : isZero b = true) :
    fdiv a b = if isZero a then nanResult .div a b else infF (isNeg a != isNeg b) := by
  have hf := finite_of_zero hb
  simp [fdiv, not_nan_of_finite ha, not_nan_of_finite hf, not_inf_of_finite ha, not_inf_of_finite hf, hb]

theorem isInf_infF (neg : Bool) : isInf (infF neg) = true := by
  cases neg <;> decide

/-- No quotient by a zero is a finite number. -/
theorem fdiv_zero_inf_or_nan (a : F64) (hb : isZero b = true) :
    isInf (fdiv a b) = true ∨ isNaN (fdiv a b) = true := by
  rcases isFinite_or a with hf | hi | hn
  · rw [fdiv_finite_zero hf hb]
    split
    · exact .inr (isNaN_nanResult _ _ _)
    · exact .inl (isInf_infF _)
  · rw [fdiv_inf_finite hi (finite_of_zero hb)]
    exact .inl (isInf_infF _)
  · rw [fdiv_nan (.inl hn)]
    exact .inr (isNaN_nanResult _ _ _)

/-- Settles O39: an effect without an integer destination is silent, and each float result is `putFlt`'s. -/
theorem floatArithmeticIsSilent : Obligations.FloatArithmeticIsSilent := by
  refine ⟨fun i s t hw h => silent_effect (exec_effect h) hw, fun a b hb => fdiv_zero_inf_or_nan a hb,
    fun s k v => ⟨?inc, ?dec, ?add, ?sub, ?mul, ?div⟩⟩
  case inc => exact putsFlt_of_exec (arith_flt iadd fadd k 1 oneF)
  case dec => exact putsFlt_of_exec (arith_flt isub fsub k 1 oneF)
  case add => exact putsFlt_of_exec (arith_flt iadd fadd k (s.valI v) (s.valF v))
  case sub => exact putsFlt_of_exec (arith_flt isub fsub k (s.valI v) (s.valF v))
  case mul => exact putsFlt_of_exec (arith_flt imul fmul k (s.valI v) (s.valF v))
  case div => exact putsFlt_of_exec (exec_div_flt s k v)

/-! ### Tolerant jumps at an infinite distance (R198) -/

/-- `EPS` is below 1.0, so the infinity is beyond it. -/
theorem eps_lt_inf : valueOf eps < valueOf (infF false) := by
  have hone := valueOf_finite_lt (show isFinite oneF = true by decide)
  rw [valueOf_oneF, Int.natAbs_natCast] at hone
  rw [valueOf_infF, if_neg Bool.false_ne_true]
  exact eps_lt_one.trans (Int.ofNat_lt.mpr hone)

/-- At an infinite distance `JNE` jumps and `JEQ` does not. -/
theorem tolerantJumps_of_fdist_inf {s : State} {k : Fin 8} {v : Value}
    (h : fdist (s.flt k) (s.valF v) = infF false) :
    s.predJne (.flt k) v = true ∧ s.predJeq (.flt k) v = false := by
  have hinf : isNaN (infF false) = false := not_nan_of_inf (isInf_infF false)
  simp only [State.predJne, State.predJeq, State.compare, h]
  constructor
  · exact (fgt_iff hinf eps_notNaN).mpr eps_lt_inf
  · rw [Bool.eq_false_iff, ne_eq, flt_iff hinf eps_notNaN]
    exact eps_lt_inf.le.not_gt

/-- Settles O60: each operation on an infinite operand, and the infinite distance of the tolerant jumps. -/
theorem infiniteOperandResults : Obligations.InfiniteOperandResults := by
  refine ⟨fun _ _ => fadd_inf, fun _ _ => fsub_inf, fun a b ha hb => ⟨fun h => ?opposite, fun h => ?equal⟩,
    fun _ _ => fmul_inf, fun _ _ => fdiv_inf_finite, fun _ _ => fdiv_finite_inf, fun _ => fabs_inf,
    fun s k v hx hy hi hne => tolerantJumps_of_fdist_inf (fdist_inf hx hy hi hne)⟩
  case opposite =>
    rw [fadd_opposite_infs ha hb h]
    exact isNaN_nanResult _ _ _
  case equal =>
    rw [fsub_equal_infs ha hb h]
    exact isNaN_nanResult _ _ _

end Sys2Proof.Machine
end

section
/-! The family `30_encoding.md`, part 2: what the encoder writes reads back, one instruction and a whole
program (R93, R94, R101, R102). -/

namespace Sys2Proof.Machine

/-! ### One instruction -/

theorem decodeOne_encode (c : Nat) (i : Instr) (rest : List Byte) :
    decodeOne c (encode i ++ rest) = .ok ((encode i).length, i) := by
  cases i with
  | drw | fwd | hlt => exact decodeOne_of_operands rfl rfl rfl
  | inc | dec => exact decodeOne_of_operands rfl rfl (decodeR_encode ..)
  | jnz => exact decodeOne_of_operands rfl rfl (decodeRA_encode ..)
  | sto | add | sub | mul | div =>
    exact decodeOne_of_operands rfl (encodeRV_length ..) (decodeRV_encode ..)
  | jeq | jne | jgt | jlt =>
    exact decodeOne_of_operands rfl (encodeRVA_length ..) (decodeRVA_encode ..)

/-- Settles O7, format by format. -/
theorem decodeOfEncodeIsTheInstruction : Obligations.DecodeOfEncodeIsTheInstruction := decodeOne_encode

/-! ### The loop over bytes that decode (R93) -/

theorem decodeFrom_of_decodesAs {c : Nat} {pre : List Byte} {is : List Instr} (h : DecodesAs c pre is)
    (bs : List Byte) :
    decodeFrom c 0 (pre ++ bs) = (decodeFrom (c + pre.length) 0 bs).map (is ++ ·) := by
  induction h with
  | nil c => cases h : decodeFrom c 0 bs <;> simp [h, Except.map]
  | @cons c i chunk rest is first _ ih =>
    rw [List.append_assoc, decodeFrom_of_decodeOne _ first, ih, List.length_append, Nat.add_assoc]
    cases decodeFrom (c + (chunk.length + rest.length)) 0 bs <;> rfl

theorem decodeFrom_eq_of_decodesAs {c : Nat} {code : List Byte} {is : List Instr} (h : DecodesAs c code is) :
    decodeFrom c 0 code = .ok is := by
  simpa [decodeFrom, Except.map] using decodeFrom_of_decodesAs h []

theorem decodesAs_encodeInstrs (c : Nat) (is : List Instr) : DecodesAs c (encodeInstrs is) is := by
  induction is generalizing c with
  | nil => exact .nil c
  | cons i is ih =>
    have first := decodeOne_encode c i []
    rw [List.append_nil] at first
    exact .cons first (ih _)

/-- Settles O12, by induction on the bytes read so far. -/
theorem decodingGoesOnAfterEachInstruction : Obligations.DecodingGoesOnAfterEachInstruction :=
  ⟨fun _ _ bs _ h => decodeFrom_of_decodesAs h bs, decodesAs_encodeInstrs⟩

/-! ### The header (R81, R93) -/

/-- What `load` answers behind a header of the supported version, the instructions being decoded (R63, R261). -/
def loadBehind (hdr : List Byte) (is : List Instr) : Except LoadFailure State :=
  if progWf is then .ok (State.ofImage ⟨byteAt hdr 0, le16 hdr 1, le16 hdr 3, is⟩)
  else .error (.programTooLong is.length)

theorem load_header_append {hdr : List Byte} (code : List Byte) (hl : hdr.length = 5) (hv : byteAt hdr 0 = 1) :
    load (hdr ++ code) = ((decodeFrom 5 0 code).mapError .decode).bind (loadBehind hdr) := by
  have hlen : ¬(hdr ++ code).length < Config.hdrLen := by
    rw [List.length_append, Config.hdrLen]
    omega
  have hver : versionWf (byteAt (hdr ++ code) 0) = true := by
    rw [byteAt_append hdr code (by omega), hv]
    rfl
  have hcode : (hdr ++ code).drop Config.hdrLen = code := List.drop_left' hl
  rw [load, decodeProgram, if_neg hlen, if_pos hver, hcode, byteAt_append hdr code (by omega),
    le16_append hdr code (by omega), le16_append hdr code (by omega)]
  cases h : decodeFrom 5 0 code with
  | error e => simp only [Config.hdrLen, h]; rfl
  | ok is =>
    simp only [Config.hdrLen, h, Except.mapError, Except.bind, loadBehind]
    split <;> rfl

/-- The five header bytes of the encoder (R81). -/
def headerBytes (img : Image) : List Byte := img.version :: (le16Bytes img.width ++ le16Bytes img.height)

theorem le16_headerBytes (img : Image) :
    le16 (headerBytes img) 1 = img.width ∧ le16 (headerBytes img) 3 = img.height :=
  ⟨le16_of_le16Bytes [img.version] img.width (le16Bytes img.height),
    le16_of_le16Bytes (img.version :: le16Bytes img.width) img.height []⟩

/-- Settles O3: the header's bytes and the code read back apart, and a well-formed program is not refused. -/
theorem loadOfEncodedProgramIsThatProgram : Obligations.LoadOfEncodedProgramIsThatProgram := by
  intro img hwf
  obtain ⟨hver, hfit⟩ := Bool.and_eq_true_iff.mp hwf
  have hone : byteAt (headerBytes img) 0 = 1 := beq_iff_eq.mp hver
  obtain ⟨hw, hh⟩ := le16_headerBytes img
  rw [show encodeProgram img = headerBytes img ++ encodeInstrs img.prog from rfl,
    load_header_append _ rfl hone, decodeFrom_eq_of_decodesAs (decodesAs_encodeInstrs 5 img.prog)]
  simp only [Except.mapError, Except.bind, loadBehind, if_pos hfit, hw, hh]
  rfl

/-- Settles O4: the loop accepts the code and `progWf` refuses what it gives. -/
theorem loadRefusesTooLongProgram : Obligations.LoadRefusesTooLongProgram := by
  intro hdr code is hl hv hd hlong
  have hfit : ¬progWf is = true := by
    rw [progWf, decide_eq_true_eq, Config.maxProg]
    omega
  rw [load_header_append code hl hv, decodeFrom_eq_of_decodesAs hd]
  simp only [Except.mapError, Except.bind, loadBehind, if_neg hfit]

/-- Settles O5. -/
theorem loadChecksHeaderFirst : Obligations.LoadChecksHeaderFirst := by
  constructor
  · intro buf hshort
    rw [load, decodeProgram, Config.hdrLen, if_pos hshort]
    rfl
  · intro buf hlen hver
    have hbad : ¬versionWf (byteAt buf 0) = true := fun h => hver (beq_iff_eq.mp h)
    rw [load, decodeProgram, Config.hdrLen, if_neg (Nat.not_lt.mpr hlen), if_neg hbad]
    rfl

/-- Settles O2, by the inversion lemmas of `load` and `decodeProgram`. -/
theorem loadFillsStoreAndResetsTheRest : Obligations.LoadFillsStoreAndResetsTheRest := by
  intro buf s h
  obtain ⟨img, hd, rfl⟩ := load_ok h
  obtain ⟨hlen, hver, hone, hw, hh, hprog, hfit⟩ := decodeProgram_ok hd
  have hzero : (0 : F64) = zeroF false := by decide
  refine ⟨hlen, hver, hver.trans hone, ?_, ?_, hprog, hfit, State.int_ofImage img,
    fun k => (State.flt_ofImage img k).trans hzero, rfl, rfl, rfl, rfl, rfl⟩
  · rw [State.ofImage_hdrWidth, hw, le16_toNat]
  · rw [State.ofImage_hdrHeight, hh, le16_toNat]

/-! ### Bytes that do not decode (R94, R221 to R226) -/

theorem map_eq_error {α β ε : Type} {x : Except ε α} {f : α → β} {e : ε} (h : x.map f = .error e) :
    x = .error e := by
  cases x with
  | error e' => cases h; rfl
  | ok a => cases h

/-- A register byte of the instruction at offset `c` is refused: the first or the second. -/
def RefusesRegByte (c : Nat) (bs : List Byte) (e : DecodeError) : Prop :=
  ∃ k, (k = 1 ∨ k = 2) ∧ e = .badRegister (c + k) (byteAt bs k)

theorem decodeReg_error {c : Nat} {b : Byte} {e : DecodeError} (h : decodeReg c b = .error e) :
    e = .badRegister c b := by
  unfold decodeReg at h
  split at h
  · cases h
  · cases h
    rfl

theorem refusesRegByte_of_rd {c : Nat} {bs : List Byte} {e : DecodeError}
    (h : decodeReg (c + 1) (byteAt bs 1) = .error e) : RefusesRegByte c bs e :=
  ⟨1, .inl rfl, decodeReg_error h⟩

theorem refusesRegByte_of_decodeRV {c : Nat} {bs : List Byte} {mk : RegId → Value → Instr} {e : DecodeError}
    (h : decodeRV c bs mk = .error e) : RefusesRegByte c bs e := by
  unfold decodeRV at h
  split at h
  case h_1 hrd =>
    cases h
    exact refusesRegByte_of_rd hrd
  case h_2 rd _ =>
    have hv := map_eq_error h
    cases hg : vregField (byteAt bs 0) with
    | true => exact ⟨2, .inr rfl, decodeReg_error (map_eq_error (hg ▸ hv))⟩
    | false => rw [hg] at hv; cases hv

theorem refusesRegByte_of_decodeOperands {m : Mnemonic} {c : Nat} {bs : List Byte} {e : DecodeError}
    (h : decodeOperands m c bs = .error e) : RefusesRegByte c bs e := by
  cases m with
  | drw | fwd | hlt => cases h
  | inc | dec | jnz => exact refusesRegByte_of_rd (map_eq_error h)
  | sto | add | sub | mul | div | jeq | jne | jgt | jlt => exact refusesRegByte_of_decodeRV h

/-- The inversion lemma of `decodeOne` for errors. -/
theorem decodeOne_error {c : Nat} {bs : List Byte} {e : DecodeError} (h : decodeOne c bs = .error e) :
    e = .badOpcode c (byteAt bs 0) ∨ e = .truncated c ∨ RefusesRegByte c bs e := by
  unfold decodeOne at h
  simp only at h
  split at h
  · cases h
    exact .inl rfl
  · split at h
    · cases h
      exact .inr (.inl rfl)
    · exact .inr (.inr (refusesRegByte_of_decodeOperands (map_eq_error h)))

theorem byteAt_append_add (pre bs : List Byte) (k : Nat) : byteAt (pre ++ bs) (pre.length + k) = byteAt bs k := by
  simp [byteAt, List.getD, List.getElem?_append_right]

theorem decodeFrom_error {c : Nat} {bs : List Byte} {e : DecodeError} (hne : bs ≠ [])
    (h : decodeOne c bs = .error e) : decodeFrom c 0 bs = .error e := by
  cases bs with
  | nil => exact absurd rfl hne
  | cons b bs => simp only [decodeFrom, h]

/-- Settles O59: the loop reaches the bytes that do not decode at their true offset and stops there. -/
theorem firstDecodeErrorFailsTheLoad : Obligations.FirstDecodeErrorFailsTheLoad := by
  intro hdr pre bs is e hl hv hd hne he
  have hat : ∀ k, byteAt bs k = byteAt (hdr ++ (pre ++ bs)) (5 + pre.length + k) := by
    intro k
    rw [← hl, Nat.add_assoc, byteAt_append_add, byteAt_append_add]
  constructor
  · rw [load_header_append _ hl hv, decodeFrom_of_decodesAs hd, decodeFrom_error hne he]
    rfl
  · obtain rfl | rfl | ⟨k, hk, rfl⟩ := decodeOne_error he
    · exact ⟨rfl, hat 0⟩
    · rfl
    · refine ⟨?_, hat k⟩
      obtain rfl | rfl := hk
      · exact .inl rfl
      · exact .inr rfl

/-- Settles O6. -/
theorem decodesSampleWords : Obligations.DecodesSampleWords := by
  unfold Obligations.DecodesSampleWords
  decide

theorem mnemonicOf_eq_none {o : BitVec 7} (h : 0x0F ≤ o.toNat) : mnemonicOf o = none := by
  cases hm : mnemonicOf o with
  | none => rfl
  | some m =>
    have hlt : m.opc.toNat < 0x0F := by cases m <;> decide
    rw [opc_of_mnemonicOf hm] at hlt
    omega

/-- Settles O9: no mnemonic has such a number. -/
theorem undefinedOpcodesAreRejected : Obligations.UndefinedOpcodesAreRejected := by
  intro c b rest h
  have ho : (opcField b).toNat = b.toNat % 128 := by
    rw [opcField, BitVec.extractLsb'_toNat, Nat.shiftRight_zero]
  have h0 : byteAt (b :: rest) 0 = b := rfl
  simp only [decodeOne, h0, mnemonicOf_eq_none (ho ▸ h)]

/-- Settles O10. -/
theorem shortInstructionIsTruncated : Obligations.ShortInstructionIsTruncated := by
  intro c m b rest ho hshort
  rw [decodeOne_eq ho, if_pos hshort]

/-! ### Register bytes above 0x0F (R97; the spec's D9, D18) -/

theorem decodeOperands_bad_rd (c : Nat) {m : Mnemonic} {bs : List Byte} (hf : m.format ≠ .N)
    (h : 0x0F < (byteAt bs 1).toNat) :
    decodeOperands m c bs = .error (.badRegister (c + 1) (byteAt bs 1)) := by
  have hbad := decodeReg_bad (c + 1) h
  cases m with
  | drw | fwd | hlt => exact absurd rfl hf
  | inc | dec | jnz => simp only [decodeOperands, decodeR, decodeRA, hbad, Except.map]
  | sto | add | sub | mul | div | jeq | jne | jgt | jlt =>
    simp only [decodeOperands, decodeRVA, decodeRV, hbad]

theorem decodeRV_bad_rs (c : Nat) {bs : List Byte} (mk : RegId → Value → Instr)
    (hv : vregField (byteAt bs 0) = true) (hrd : (byteAt bs 1).toNat ≤ 0x0F)
    (hrs : 0x0F < (byteAt bs 2).toNat) :
    decodeRV c bs mk = .error (.badRegister (c + 2) (byteAt bs 2)) := by
  obtain ⟨rd, hok⟩ : ∃ rd, decodeReg (c + 1) (byteAt bs 1) = .ok rd := by
    cases hr : regOfByte (byteAt bs 1) with
    | none => exact absurd ((regOfByte_none_iff _).mp hr) (Nat.not_lt.mpr hrd)
    | some rd => exact ⟨rd, by rw [decodeReg, hr]⟩
  simp only [decodeRV, hok, hv, decodeValue, decodeReg_bad (c + 2) hrs, Except.map]

theorem decodeOperands_bad_rs (c : Nat) {m : Mnemonic} {bs : List Byte} (hf : m.format = .RV ∨ m.format = .RVA)
    (hv : vregField (byteAt bs 0) = true) (hrd : (byteAt bs 1).toNat ≤ 0x0F)
    (hrs : 0x0F < (byteAt bs 2).toNat) :
    decodeOperands m c bs = .error (.badRegister (c + 2) (byteAt bs 2)) := by
  cases m with
  | drw | fwd | hlt | inc | dec | jnz => simp [Mnemonic.format] at hf
  | sto | add | sub | mul | div | jeq | jne | jgt | jlt => exact decodeRV_bad_rs c _ hv hrd hrs

/-- Settles O11: the operands are looked at once all bytes are there, `rd` first. -/
theorem registerByteAboveFifteenIsRejected : Obligations.RegisterByteAboveFifteenIsRejected := by
  constructor
  · intro c m b rd rest ho hf hlen hrd
    rw [decodeOne_eq ho, if_neg (Nat.not_lt.mpr hlen), decodeOperands_bad_rd (bs := b :: rd :: rest) c hf hrd]
    rfl
  · intro c m b rd rs rest ho hf hv hlen hrd hrs
    rw [decodeOne_eq ho, if_neg (Nat.not_lt.mpr hlen),
      decodeOperands_bad_rs (bs := b :: rd :: rs :: rest) c hf hv hrd hrs]
    rfl

/-! ### The step on loaded bytes (R62, R121) -/

/-- Where the bytes decode, the loop's answer starts with the instruction. -/
theorem decodeFrom_starts {c n : Nat} {i : Instr} {bs : List Byte} {is : List Instr}
    (h : decodeOne c bs = .ok (n, i)) (hd : decodeFrom c 0 bs = .ok is) : ∃ js, is = i :: js := by
  cases bs with
  | nil => cases h
  | cons b bs =>
    simp only [decodeFrom, h] at hd
    obtain ⟨js, -, rfl⟩ := map_eq_ok hd
    exact ⟨js, rfl⟩

/-- Settles O14: the instruction stands in the store behind those that decode before it. -/
theorem stepRunsTheLoadedBytes : Obligations.StepRunsTheLoadedBytes := by
  intro hdr pre bs is n i s t hl hd hi hload hprog hrun hpc
  have hs : decodeFrom 5 0 (pre ++ bs) = .ok s.prog := by
    have := load_prog hload
    rwa [List.drop_left' hl] at this
  rw [decodeFrom_of_decodesAs hd] at hs
  obtain ⟨is', hrest, he⟩ := map_eq_ok hs
  obtain ⟨js, rfl⟩ := decodeFrom_starts hi hrest
  refine step_running hrun ?_
  rw [State.fetch, hprog, ← he, hpc, List.getElem?_append_right (Nat.le_refl _), Nat.sub_self]
  rfl

end Sys2Proof.Machine
end

section
/-! The family `10_state.md`, part 4: the step, the invariant, and where the `pc` and the status go. -/

namespace Sys2Proof.Machine

variable {s t : State} {i : Instr}

/-! ### The step (R121, R233, R273) -/

/-- Settles O13. -/
theorem stepRunsTheFetchedInstruction : Obligations.StepRunsTheFetchedInstruction :=
  fun _ h hr => step_running hr (List.getElem?_eq_getElem h)

/-- Settles O15. -/
theorem stepPastTheEndFaults : Obligations.StepPastTheEndFaults :=
  fun _ hr hn => step_pastEnd hr (fetch_none_iff.mpr hn)

/-- Settles O16. -/
theorem terminalStatusHasNoStep : Obligations.TerminalStatusHasNoStep := by
  intro s hs
  refine ⟨step_halted, fun c info => step_faulted, fun t h => ?_⟩
  obtain ⟨hr, -⟩ := step_cases h
  exact hs hr

/-- Settles O17: every instruction has a next state, and so has a fetch past the end. -/
theorem runningMachineAlwaysSteps : Obligations.RunningMachineAlwaysSteps := by
  intro s hr
  cases hf : s.fetch with
  | none => exact ⟨_, step_pastEnd hr hf⟩
  | some i =>
    rw [step_running hr hf]
    exact exec_total i s

/-! ### The invariant -/

/-- The status clauses of the invariant: a machine that has ended stands on the cause of its end. -/
def State.StatusJustified (s : State) : Prop :=
  match s.status with
  | .running => True
  | .halted => s.fetch = some .hlt
  | .faulted .divideByZero info => info = s.pc ∧ ∃ k v, s.fetch = some (.div (.int k) v) ∧ s.valI v = 0#16
  | .faulted .pcOutOfRange info => info = s.pc ∧ s.n ≤ s.pc

theorem statusJustified_of_running (h : s.status = .running) : s.StatusJustified := by
  rw [State.StatusJustified, h]
  trivial

/-- The invariant from its clauses on the store, the `pc` and the streams, and the justified status. -/
theorem inv_of_statusJustified (hn : s.n ≤ Config.maxProg) (hpc : s.pc ≤ Config.maxProg)
    (hv : s.hdrVersion = Config.version) (hd : ∀ d ∈ s.diagout, d.index < s.n)
    (hp : ∀ p ∈ s.pixout, p.colour = Config.color) (hs : s.StatusJustified) : s.Inv where
  progFits := hn
  pcRange := hpc
  version := hv
  diagIndex := hd
  pixelColour := hp
  haltedAtHlt h := by rwa [State.StatusJustified, h] at hs
  faultInfo c info h := by
    rw [State.StatusJustified, h] at hs
    cases c <;> exact hs.1
  divFault info h := by
    rw [State.StatusJustified, h] at hs
    exact hs.2
  pcFault info h := by
    rw [State.StatusJustified, h] at hs
    exact hs.2

theorem inv_ofImage {img : Image} (hv : img.version = Config.version) (hp : img.prog.length ≤ Config.maxProg) :
    (State.ofImage img).Inv :=
  inv_of_statusJustified hp (Nat.zero_le _) hv nofun nofun (statusJustified_of_running rfl)

/-- Settles O18: reset is the load of the empty program. -/
theorem resetHasTheInvariant : Obligations.ResetHasTheInvariant :=
  inv_ofImage (img := ⟨Config.version, 0, 0, []⟩) rfl (Nat.zero_le _)

/-- Settles O19. -/
theorem loadEstablishesTheInvariant : Obligations.LoadEstablishesTheInvariant := by
  intro buf s h
  obtain ⟨img, hd, rfl⟩ := load_ok h
  obtain ⟨-, hver, hone, -, -, -, hfit⟩ := decodeProgram_ok hd
  exact inv_ofImage (hver.trans hone) hfit

theorem pc_lt_of_fetch (hf : s.fetch = some i) : s.pc < s.n :=
  (List.getElem?_eq_some_iff.mp hf).1

/-- A running machine's instruction leaves a justified status, at a `pc` in range. -/
theorem status_effect (hinv : s.Inv) (hr : s.status = .running) (hf : s.fetch = some i) (h : Effect i s t) :
    t.pc ≤ Config.maxProg ∧ t.StatusJustified := by
  have hlt := pc_lt_of_fetch hf
  have hfits := hinv.progFits
  obtain ⟨hpc, hs⟩ | ⟨a, -, hpc, hs⟩ | ⟨rfl, rfl⟩ | ⟨rfl, k, v, rfl, hz⟩ := pc_effect h
  · exact ⟨by omega, statusJustified_of_running (hs.trans hr)⟩
  · exact ⟨hpc ▸ a.isLt.le, statusJustified_of_running (hs.trans hr)⟩
  · exact ⟨hinv.pcRange, hf⟩
  · exact ⟨hinv.pcRange, rfl, k, v, hf, hz⟩

theorem diagIndex_effect (hinv : s.Inv) (hf : s.fetch = some i) (h : Effect i s t) :
    ∀ d ∈ t.diagout, d.index < s.n := by
  intro d hd
  obtain he | ⟨he, -⟩ := diag_effect h
  · exact hinv.diagIndex d (he ▸ hd)
  · rw [he, List.mem_append, List.mem_singleton] at hd
    obtain hd | rfl := hd
    · exact hinv.diagIndex d hd
    · exact pc_lt_of_fetch hf

theorem pixelColour_effect (hinv : s.Inv) (h : Effect i s t) : ∀ p ∈ t.pixout, p.colour = Config.color := by
  intro p hp
  obtain ⟨he, -⟩ | ⟨q, he, hq, -⟩ := pix_effect h
  · exact hinv.pixelColour p (he ▸ hp)
  · rw [he, List.mem_append, List.mem_singleton] at hp
    obtain hp | rfl := hp
    · exact hinv.pixelColour p hp
    · exact hq

/-- Settles O20: past the end the fault is justified, and each clause is kept by every effect. -/
theorem stepKeepsTheInvariant : Obligations.StepKeepsTheInvariant := by
  intro s t hinv hstep
  obtain ⟨hprog, hver, -, -⟩ := sameProgram_step hstep
  have hn : t.n = s.n := congrArg List.length hprog
  obtain ⟨hr, ⟨hf, rfl⟩ | ⟨i, hf, hex⟩⟩ := step_cases hstep
  · exact inv_of_statusJustified hinv.progFits hinv.pcRange hinv.version hinv.diagIndex hinv.pixelColour
      ⟨rfl, fetch_none_iff.mp hf⟩
  · have he := exec_effect hex
    obtain ⟨hpc, hs⟩ := status_effect hinv hr hf he
    exact inv_of_statusJustified (hn ▸ hinv.progFits) hpc (hver.trans hinv.version)
      (hn ▸ diagIndex_effect hinv hf he) (pixelColour_effect hinv he) hs

/-! ### Where the `pc` goes (R29, R31, R122) -/

/-- The `pc` after an action at `pc`. -/
def Action.pcAfter : Action → Nat → Nat
  | .toggle, pc => pc + 1
  | .move _ _, pc => pc + 1
  | .write _, pc => pc + 1
  | .branch p a, pc => if p then a.toNat else pc + 1
  | .fault, pc => pc
  | .halt, pc => pc

@[simp] theorem State.pc_plot (s : State) : s.plot.pc = s.pc := by
  rw [State.plot]
  split <;> rfl

@[simp] theorem State.status_plot (s : State) : s.plot.status = s.status := by
  rw [State.plot]
  split <;> rfl

@[simp] theorem pc_apply (a : Action) (s : State) : (a.apply s).pc = a.pcAfter s.pc := by
  cases a with
  | toggle | fault | halt => rfl
  | move x y => simp [Action.apply, Action.pcAfter]
  | branch p a => cases p <;> rfl
  | write w => cases w <;> simp [Action.apply, Action.pcAfter, Write.apply, State.putInt, State.putFlt]

theorem pc_exec (h : exec i s = .next t) : t.pc = (s.action i).pcAfter s.pc := by
  rw [exec_eq_apply_action, Host.Outcome.next.injEq] at h
  rw [← h, pc_apply]

/-- The faulting condition of `DIV` as a proposition. -/
theorem divByZero_int (s : State) (k : Fin 8) (v : Value) : s.divByZero (.int k) v = decide (s.valI v = 0#16) := by
  rw [State.divByZero, beq_eq_decide]

/-- Settles O21, by the action of each instruction. -/
theorem pcAfterEachInstruction : Obligations.PcAfterEachInstruction := by
  intro i s t h
  rw [pc_exec h]
  cases i with
  | div rd v =>
    cases rd with
    | flt k => rfl
    | int k =>
      simp only [State.action, divByZero_int, decide_eq_true_eq]
      split <;> rfl
  | drw | fwd | sto | inc | dec | add | sub | mul | jnz | jeq | jne | jgt | jlt | hlt => rfl

/-- Without a taken jump the `pc` goes on, or stays where the run ends. -/
theorem pcAfter_of_not_taken (h : s.taken i = false) (pc : Nat) :
    (s.action i).pcAfter pc = if s.ends i then pc else pc + 1 := by
  cases i with
  | drw | fwd | sto | inc | dec | add | sub | mul | hlt => rfl
  | div rd v =>
    rw [State.action, State.ends]
    split <;> rfl
  | jnz | jeq | jne | jgt | jlt =>
    rw [State.taken] at h
    simp only [State.action, Action.pcAfter, h]
    rfl

/-- What an action leaves in the registers does not depend on the `pc`. -/
theorem regs_apply_pc (a : Action) (s : State) (p : Nat) :
    (∀ k, (a.apply { s with pc := p }).int k = (a.apply s).int k) ∧
      ∀ k, (a.apply { s with pc := p }).flt k = (a.apply s).flt k := by
  cases a with
  | toggle | fault | halt => exact ⟨fun _ => rfl, fun _ => rfl⟩
  | branch b a => cases b <;> exact ⟨fun _ => rfl, fun _ => rfl⟩
  | move x y =>
    constructor <;> intro k <;>
      simp only [Action.apply, State.int_advance, State.int_plot, State.flt_advance, State.flt_plot] <;> rfl
  | write w =>
    cases w with
    | flt j f => exact ⟨fun _ => rfl, fun _ => rfl⟩
    | int j r =>
      constructor <;> intro k <;>
        simp only [Action.apply, Write.apply, State.putInt, State.int_advance, State.int_emitWrap,
          State.flt_advance, State.flt_emitWrap] <;> rfl

theorem exec_regs_pc (h : exec i s = .next t) (p : Nat) :
    ∃ t', exec i { s with pc := p } = .next t' ∧
      (∀ k, t'.int k = t.int k) ∧ (∀ k, t'.flt k = t.flt k) := by
  rw [exec_eq_apply_action, Host.Outcome.next.injEq] at h
  subst h
  have ha : State.action { s with pc := p } i = s.action i := action_congr fun r _ => by cases r <;> rfl
  exact ⟨_, by rw [exec_eq_apply_action, ha], regs_apply_pc (s.action i) s p⟩

/-! ### The status (R34, R210, R230 to R233) -/

/-- The status after an action at `pc`. -/
def Action.statusAfter : Action → Nat → Status → Status
  | .toggle, _, st => st
  | .move _ _, _, st => st
  | .write _, _, st => st
  | .branch _ _, _, st => st
  | .fault, pc, _ => .faulted .divideByZero pc
  | .halt, _, _ => .halted

@[simp] theorem status_apply (a : Action) (s : State) : (a.apply s).status = a.statusAfter s.pc s.status := by
  cases a with
  | toggle | fault | halt => rfl
  | move x y => simp [Action.apply, Action.statusAfter]
  | branch p a => cases p <;> rfl
  | write w => cases w <;> simp [Action.apply, Action.statusAfter, Write.apply, State.putInt, State.putFlt]

theorem status_exec (h : exec i s = .next t) : t.status = (s.action i).statusAfter s.pc s.status := by
  rw [exec_eq_apply_action, Host.Outcome.next.injEq] at h
  rw [← h, status_apply]

theorem statusAfter_of_not_ends (h : s.ends i = false) (pc : Nat) (st : Status) :
    (s.action i).statusAfter pc st = st := by
  cases i with
  | drw | fwd | sto | inc | dec | add | sub | mul | jnz | jeq | jne | jgt | jlt => rfl
  | hlt => cases h
  | div rd v =>
    rw [State.ends] at h
    simp only [State.action, h]
    rfl

/-- The last instruction of the program, where it goes on, is followed by `PcOutOfRange` (R31, R233). -/
theorem last_instruction_then_faults (hr : s.status = .running) (hf : s.fetch = some i)
    (ht : s.taken i = false) (he : s.ends i = false) (hlast : s.pc + 1 = s.n) :
    ∃ t, step s = .next t ∧ t.pc = s.n ∧ t.n = s.n ∧ t.status = .running ∧
      step t = .next { t with status := .faulted .pcOutOfRange s.n } := by
  obtain ⟨t, hex⟩ := exec_total i s
  have hpc : t.pc = s.n := by
    rw [pc_exec hex, pcAfter_of_not_taken ht, he, if_neg Bool.false_ne_true, hlast]
  have hn : t.n = s.n := congrArg List.length (sameProgram_effect (exec_effect hex)).1
  have hst : t.status = .running := by rw [status_exec hex, statusAfter_of_not_ends he, hr]
  refine ⟨t, (step_running hr hf).trans hex, hpc, hn, hst, ?_⟩
  rw [step_pastEnd hst (fetch_none_iff.mpr (hn.trans hpc.symm).le), State.raise, hpc]

/-- Settles O22: the action says where the `pc` goes, and its registers do not depend on the `pc`. -/
theorem pcNeverWrapsAndNeverReachesARegister : Obligations.PcNeverWrapsAndNeverReachesARegister :=
  ⟨fun _ _ _ h ht => (pc_exec h).trans (pcAfter_of_not_taken ht _), fun _ _ _ p h => exec_regs_pc h p,
    fun _ _ => last_instruction_then_faults⟩

theorem statusAfter_div_int (s : State) (k : Fin 8) (v : Value) (pc : Nat) (st : Status) :
    (s.action (.div (.int k) v)).statusAfter pc st =
      if s.valI v = 0#16 then .faulted .divideByZero pc else st := by
  simp only [State.action, divByZero_int, decide_eq_true_eq]
  split <;> rfl

/-- Settles O27: the action of each instruction says its status, and a step is one or the fetch fault. -/
theorem statusChangesOnlyAtHltAndAtTheTwoFaults : Obligations.StatusChangesOnlyAtHltAndAtTheTwoFaults := by
  refine have hexec := ?exec; ⟨hexec, ?step⟩
  case exec =>
    intro i s t h
    rw [status_exec h]
    cases i with
    | div rd v =>
      cases rd with
      | int k => exact statusAfter_div_int s k v _ _
      | flt k => rfl
    | drw | fwd | sto | inc | dec | add | sub | mul | jnz | jeq | jne | jgt | jlt | hlt => rfl
  case step =>
    intro s t h
    obtain ⟨hr, ⟨hf, rfl⟩ | ⟨i, hf, hex⟩⟩ := step_cases h
    · rw [hf]
      rfl
    · have hst := hexec i s t hex
      rw [hr] at hst
      rw [hf]
      cases i with
      | div rd v => cases rd <;> exact hst
      | drw | fwd | sto | inc | dec | add | sub | mul | jnz | jeq | jne | jgt | jlt | hlt => exact hst

/-! ### The status port (R37, R55) -/

/-- Settles O28: by the three statuses, `finfo` fitting its 17 bits by the invariant. -/
theorem statusIsVisibleAtThePorts : Obligations.StatusIsVisibleAtThePorts := by
  refine ⟨fun s c info hinv hs => ?_, fun s => ?_, fun s => ?_, fun s => ?_⟩
  · have hinfo := hinv.faultInfo c info hs
    have hpc := hinv.pcRange
    rw [Config.maxProg] at hpc
    refine ⟨by rw [State.statusBits, hs], ?_, ?_⟩
    · rw [State.finfo, hs, hinfo]
      exact Nat.mod_eq_of_lt (by omega)
    · rw [State.fcause, hs]
      cases c <;> rfl
  · rw [State.statusBits]
    cases s.status <;> simp
  · rw [State.statusBits]
    cases s.status <;> simp
  · rw [State.terminated, State.statusBits]
    cases s.status <;> simp

/-- Settles O1. -/
theorem resetValuesOfRegistersStatusAndStreams : Obligations.ResetValuesOfRegistersStatusAndStreams :=
  ⟨State.int_reset, fun k => (State.flt_reset k).trans (by decide), rfl, rfl, rfl, rfl, rfl, rfl, rfl⟩

end Sys2Proof.Machine
end

section
/-! The family `40_execution_loop.md`, part 3: correct rounding, special results, comparisons and conversions
(R127 to R133). -/

namespace Sys2Proof.Machine

variable {a b : F64}

/-! ### Correct rounding (R131; the spec's D24) -/

/-- An integer is its magnitude with its sign, whatever sign a zero gets. -/
theorem signed_natAbs (v : Int) (zeroNeg : Bool) :
    (if (if v = 0 then zeroNeg else decide (v < 0)) = true then -(v.natAbs : Int) else v.natAbs) = v := by
  rcases lt_trichotomy v 0 with hlt | rfl | hgt
  · rw [if_neg hlt.ne, if_pos (decide_eq_true hlt)]
    omega
  · simp
  · rw [if_neg hgt.ne', if_neg (by simpa using hgt.le)]
    omega

/-- The rounding of the exact integer `v` by its magnitude. -/
theorem correctlyRounded_of_sign (v : Int) (zeroNeg : Bool) :
    CorrectlyRounded v 1 (ofBits (if v = 0 then zeroNeg else decide (v < 0)) (roundMag v.natAbs 1)) := by
  have h := ofBits_roundMag_correct (if v = 0 then zeroNeg else decide (v < 0)) v.natAbs one_pos
  rwa [signed_natAbs] at h

/-- Settles O50. -/
theorem sumAndDifferenceAreCorrectlyRounded : Obligations.SumAndDifferenceAreCorrectlyRounded := by
  intro a b ha hb
  rw [fadd_finite ha hb, fsub_finite ha hb]
  exact ⟨correctlyRounded_of_sign _ _, correctlyRounded_of_sign _ _⟩

/-- The sign of a product is the exclusive-or of the signs, its magnitude the product of the magnitudes. -/
theorem valueOf_mul_valueOf (a b : F64) :
    valueOf a * valueOf b = if (isNeg a != isNeg b) = true
      then -((unitsOfBits (magBits a) * unitsOfBits (magBits b) : Nat) : Int)
      else (unitsOfBits (magBits a) * unitsOfBits (magBits b) : Nat) := by
  rw [valueOf, valueOf]
  cases isNeg a <;> cases isNeg b <;> simp

/-- Settles O51. -/
theorem productIsCorrectlyRounded : Obligations.ProductIsCorrectlyRounded := by
  intro a b ha hb
  rw [fmul_finite ha hb, valueOf_mul_valueOf]
  exact ofBits_roundMag_correct _ _ unitsPerOne_pos

theorem magnitude_pos (hz : isZero b = false) : 0 < unitsOfBits (magBits b) := by
  rw [← valueOf_natAbs, Int.natAbs_pos, ne_eq, ← isZero_iff_valueOf, hz]
  exact Bool.false_ne_true

theorem sign_valueOf (hz : isZero b = false) : (valueOf b).sign = if isNeg b then -1 else 1 := by
  have hone := Int.sign_eq_one_of_pos (Int.natCast_pos.mpr (magnitude_pos hz))
  rw [valueOf]
  split
  · rw [Int.sign_neg, hone]
  · exact hone

/-- Settles O52. -/
theorem quotientIsCorrectlyRounded : Obligations.QuotientIsCorrectlyRounded := by
  intro a b ha hb hz
  have hnum : valueOf a * unitsPerOne * (valueOf b).sign = if (isNeg a != isNeg b) = true
      then -((unitsOfBits (magBits a) * unitsPerOne : Nat) : Int)
      else (unitsOfBits (magBits a) * unitsPerOne : Nat) := by
    rw [sign_valueOf hz, valueOf]
    cases isNeg a <;> cases isNeg b <;> simp
  rw [fdiv_finite ha hb hz, valueOf_natAbs, hnum]
  exact ofBits_roundMag_correct _ _ (magnitude_pos hz)

/-! ### NaN results (R131, R132) -/

theorem isNaN_fadd_of_nan (h : isNaN a = true ∨ isNaN b = true) : isNaN (fadd a b) = true := by
  rw [fadd, sumWith_nan _ h]
  exact isNaN_nanResult _ _ _

theorem isNaN_fsub_of_nan (h : isNaN a = true ∨ isNaN b = true) : isNaN (fsub a b) = true := by
  rw [fsub, sumWith_nan _ (by rwa [isNaN_fneg])]
  exact isNaN_nanResult _ _ _

theorem isNaN_fmul_of_nan (h : isNaN a = true ∨ isNaN b = true) : isNaN (fmul a b) = true := by
  rw [fmul, if_pos (by simpa using h)]
  exact isNaN_nanResult _ _ _

theorem isNaN_fdiv_of_nan (h : isNaN a = true ∨ isNaN b = true) : isNaN (fdiv a b) = true := by
  rw [fdiv_nan h]
  exact isNaN_nanResult _ _ _

theorem isNaN_fmul_zero_inf (ha : isZero a = true) (hb : isInf b = true) :
    isNaN (fmul a b) = true ∧ isNaN (fmul b a) = true := by
  have hn : isNaN a = false := not_nan_of_finite (finite_of_zero ha)
  simp [fmul, hn, not_nan_of_inf hb, ha, hb]

theorem isNaN_fdiv_inf_inf (ha : isInf a = true) (hb : isInf b = true) : isNaN (fdiv a b) = true := by
  simp [fdiv, not_nan_of_inf ha, not_nan_of_inf hb, ha, hb]

/-! ### Comparisons (R131, R133) -/

theorem flt_eq_true_iff (a b : F64) :
    flt a b = true ↔ isNaN a = false ∧ isNaN b = false ∧ valueOf a < valueOf b := by
  simp [flt, and_assoc]

theorem fgt_eq_flt (a b : F64) : fgt a b = flt b a := by
  rw [fgt, flt, Bool.and_comm (!isNaN a)]

theorem flt_eq_false_of_zeros (ha : isZero a = true) (hb : isZero b = true) : flt a b = false := by
  rw [isZero_iff_valueOf] at ha hb
  simp [flt, ha, hb]

/-- An infinity is beyond every finite number. -/
theorem finite_between_infs (ha : isFinite a = true) :
    flt a (infF false) = true ∧ fgt a (infF true) = true := by
  have hlt := valueOf_finite_lt ha
  have hn := not_nan_of_finite ha
  rw [flt_iff hn (not_nan_of_inf (isInf_infF _)), fgt_iff hn (not_nan_of_inf (isInf_infF _)), valueOf_infF,
    valueOf_infF]
  simp only [Bool.false_eq_true, if_false, if_true]
  omega

/-- Settles O53. -/
theorem specialFloatResults : Obligations.SpecialFloatResults := by
  refine ⟨fun a b h => ⟨isNaN_fadd_of_nan h, isNaN_fsub_of_nan h, isNaN_fmul_of_nan h, isNaN_fdiv_of_nan h⟩,
    fun a ha => ?infMinusInf, fun _ _ => isNaN_fmul_zero_inf, fun a b ha hb => ?zeroByZero,
    fun _ _ => isNaN_fdiv_inf_inf, fun a b hf ha hb => ?byZero, fun a b => ⟨flt_eq_true_iff a b, ?order⟩,
    fun a b ha hb => ?zeros, fun _ => finite_between_infs⟩
  case infMinusInf =>
    rw [fsub_equal_infs ha ha rfl]
    exact isNaN_nanResult _ _ _
  case zeroByZero =>
    rw [fdiv_finite_zero (finite_of_zero ha) hb, if_pos ha]
    exact isNaN_nanResult _ _ _
  case byZero => rw [fdiv_finite_zero hf hb, ha, if_neg Bool.false_ne_true]
  case order => rw [fgt_eq_flt, flt_eq_true_iff, and_left_comm]
  case zeros => exact ⟨flt_eq_false_of_zeros ha hb, fgt_eq_flt a b ▸ flt_eq_false_of_zeros hb ha⟩

/-! ### Conversions (R127 to R129) -/

/-- `F2U` of a number: the integer part, clamped (R128). -/
theorem toNat_f2u {f : F64} (hf : isNaN f = false) :
    ((f2u f).toNat : Int) = max 0 (min 65535 (valueOf f / (unitsPerOne : Int))) := by
  have hu : (0 : Int) < unitsPerOne := Int.natCast_pos.mpr unitsPerOne_pos
  rw [f2u, hf, if_neg Bool.false_ne_true]
  generalize valueOf f = v
  generalize hU : (unitsPerOne : Int) = U at hu
  split
  case isTrue hlo =>
    have : v / U < 1 := Int.ediv_lt_of_lt_mul hu (by omega)
    simp only [BitVec.ofNat_eq_ofNat, BitVec.toNat_ofNat]
    omega
  case isFalse hlo =>
    split
    case isTrue hhi =>
      have : 65535 ≤ v / U := Int.le_ediv_of_mul_le hu hhi
      simp only [BitVec.ofNat_eq_ofNat, BitVec.toNat_ofNat]
      omega
    case isFalse hhi =>
      have h1 : 1 ≤ v / U := Int.le_ediv_of_mul_le hu (by omega)
      have h2 : v / U < 65535 := Int.ediv_lt_of_lt_mul hu (by omega)
      have hdiv : ((v.toNat / unitsPerOne : Nat) : Int) = v / U := by
        rw [Int.natCast_ediv, Int.toNat_of_nonneg (by omega), hU]
      rw [BitVec.toNat_ofNat, Nat.mod_eq_of_lt (by omega), hdiv]
      omega

/-- Settles O55. -/
theorem floatToIntegerTruncatesAndClamps : Obligations.FloatToIntegerTruncatesAndClamps :=
  fun _ => ⟨fun h => if_pos h, toNat_f2u⟩

/-- Settles O54: a whole number in range is neither rounded by `U2F` nor clamped by `F2U`. -/
theorem integerToFloatIsExact : Obligations.IntegerToFloatIsExact := by
  intro n
  refine ⟨valueOf_u2f n, u2f_finite n, BitVec.eq_of_toNat_eq ?_⟩
  have hu : (unitsPerOne : Int) ≠ 0 := Int.natCast_ne_zero.mpr unitsPerOne_pos.ne'
  have h := toNat_f2u (not_nan_of_finite (u2f_finite n))
  have hn := n.isLt
  rw [valueOf_u2f, Int.mul_ediv_cancel _ hu] at h
  omega

/-- `F2P` of a number: the integer part toward zero, clamped (R129). -/
theorem toInt_f2p {f : F64} (hf : isNaN f = false) :
    (f2p f).toInt = max (-2147483648) (min 2147483647 ((valueOf f).tdiv (unitsPerOne : Int))) := by
  have hu : (0 : Int) < unitsPerOne := Int.natCast_pos.mpr unitsPerOne_pos
  rw [f2p, hf, if_neg Bool.false_ne_true]
  generalize valueOf f = v
  generalize (unitsPerOne : Int) = U at *
  have hlow : ∀ c : Int, v ≤ c * U → v.tdiv U ≤ c := fun c h =>
    (Int.tdiv_le_tdiv hu h).trans_eq (Int.mul_tdiv_cancel c hu.ne')
  have hhigh : ∀ c : Int, c * U ≤ v → c ≤ v.tdiv U := fun c h =>
    (Int.mul_tdiv_cancel c hu.ne').symm.trans_le (Int.tdiv_le_tdiv hu h)
  split
  case isTrue hlo =>
    have := hlow _ hlo
    rw [show (BitVec.ofInt 32 (-2147483648)).toInt = -2147483648 by decide]
    omega
  case isFalse hlo =>
    split
    case isTrue hhi =>
      have := hhigh _ hhi
      rw [show (BitVec.ofInt 32 2147483647).toInt = 2147483647 by decide]
      omega
    case isFalse hhi =>
      have h1 := hhigh _ (not_le.mp hlo).le
      have h2 := hlow _ (not_le.mp hhi).le
      rw [BitVec.toInt_ofInt, Int.bmod_eq_of_le (by omega) (by omega)]
      omega

/-- Settles O56. -/
theorem floatToPixelTruncatesAndClamps : Obligations.FloatToPixelTruncatesAndClamps :=
  fun _ => ⟨fun h => if_pos h, toInt_f2p⟩

/-- Settles O57: a distance of at least one unit does not round to zero. -/
theorem roundedDistanceIsZeroOnlyForEqualValues : Obligations.RoundedDistanceIsZeroOnlyForEqualValues := by
  intro a b ha hb
  rw [isZero, beq_iff_eq, magBits_fabs, fsub_finite ha hb, magBits_ofBits _ (roundMag_lt _ _), roundMag_eq_zero,
    Int.natAbs_eq_zero, sub_eq_zero]

end Sys2Proof.Machine
end

section
/-! The family `40_execution_loop.md`, part 4: NaN bits are unobservable (R132). States alike but for NaN bits
have actions alike but for NaN bits, and those have alike effects. -/

namespace Sys2Proof.Machine

variable {s t : State} {a b a' b' : F64}

/-! ### Data alike but for NaN bits -/

theorem sameDatum_refl (a : F64) : SameDatum a a := .inl rfl

/-- A function that is constant on the NaNs does not see their bits. -/
theorem eq_of_sameDatum {α : Type} {g : F64 → α} {c : α} (hg : ∀ f, isNaN f = true → g f = c)
    (h : SameDatum a b) : g a = g b := by
  obtain rfl | ⟨ha, hb⟩ := h
  · rfl
  · rw [hg a ha, hg b hb]

theorem f2u_sameDatum (h : SameDatum a b) : f2u a = f2u b := eq_of_sameDatum (fun _ hn => if_pos hn) h

theorem f2p_sameDatum (h : SameDatum a b) : f2p a = f2p b := eq_of_sameDatum (fun _ hn => if_pos hn) h

/-- A binary function that is constant where an operand is a NaN does not see the bits of a NaN. -/
theorem eq_of_sameDatum₂ {α : Type} {g : F64 → F64 → α} {c : α}
    (hg : ∀ x y, isNaN x = true ∨ isNaN y = true → g x y = c) (ha : SameDatum a a') (hb : SameDatum b b') :
    g a b = g a' b' := by
  obtain rfl | ⟨hn, hn'⟩ := ha
  · obtain rfl | ⟨hn, hn'⟩ := hb
    · rfl
    · rw [hg _ _ (.inr hn), hg _ _ (.inr hn')]
  · rw [hg _ _ (.inl hn), hg _ _ (.inl hn')]

/-- The operation gives results alike on operands alike. -/
def RespectsNaN (op : F64 → F64 → F64) : Prop :=
  ∀ a a' b b', SameDatum a a' → SameDatum b b' → SameDatum (op a b) (op a' b')

/-- An operation that gives a NaN on a NaN keeps data alike. -/
theorem respectsNaN_of_nan {op : F64 → F64 → F64}
    (h : ∀ a b, isNaN a = true ∨ isNaN b = true → isNaN (op a b) = true) : RespectsNaN op := by
  rintro a a' b b' (rfl | ⟨ha, ha'⟩) (rfl | ⟨hb, hb'⟩)
  · exact sameDatum_refl _
  · exact .inr ⟨h _ _ (.inr hb), h _ _ (.inr hb')⟩
  · exact .inr ⟨h _ _ (.inl ha), h _ _ (.inl ha')⟩
  · exact .inr ⟨h _ _ (.inl ha), h _ _ (.inl ha')⟩

theorem respectsNaN_fadd : RespectsNaN fadd := respectsNaN_of_nan fun _ _ => isNaN_fadd_of_nan
theorem respectsNaN_fsub : RespectsNaN fsub := respectsNaN_of_nan fun _ _ => isNaN_fsub_of_nan
theorem respectsNaN_fmul : RespectsNaN fmul := respectsNaN_of_nan fun _ _ => isNaN_fmul_of_nan
theorem respectsNaN_fdiv : RespectsNaN fdiv := respectsNaN_of_nan fun _ _ => isNaN_fdiv_of_nan

/-! ### Actions alike but for NaN bits -/

/-- The same action, but for the bits of a NaN on its way to a float register. -/
inductive SameAction : Action → Action → Prop
  | refl (a : Action) : SameAction a a
  | move {x x' y y' : F64} (hx : SameDatum x x') (hy : SameDatum y y') : SameAction (.move x y) (.move x' y')
  | writeFlt (k : Fin 8) {f f' : F64} (hf : SameDatum f f') :
      SameAction (.write (.flt k f)) (.write (.flt k f'))

section
variable (h : SameUpToNaN s t)
include h

theorem valI_eq_of_sameUpToNaN (v : Value) : s.valI v = t.valI v := by
  rcases v with n | (k | k)
  · rfl
  · exact h.ints k
  · exact f2u_sameDatum (h.flts k)

theorem valF_sameDatum (v : Value) : SameDatum (s.valF v) (t.valF v) := by
  rcases v with n | (k | k)
  · exact sameDatum_refl _
  · exact .inl (congrArg u2f (h.ints k))
  · exact h.flts k

theorem sameAction_result (opi : U16 → U16 → U16 × Bool) {opf : F64 → F64 → F64} (hop : RespectsNaN opf)
    (rd : RegId) {n n' : U16} {f f' : F64} (hn : n = n') (hf : SameDatum f f') :
    SameAction (.write (s.result opi opf rd n f)) (.write (t.result opi opf rd n' f')) := by
  subst hn
  cases rd with
  | int k =>
    rw [State.result, State.result, h.ints]
    exact .refl _
  | flt k => exact .writeFlt k (hop _ _ _ _ (h.flts k) hf)

theorem compare_eq_of_sameUpToNaN (ci : U16 → U16 → Bool) {cf : F64 → F64 → Bool}
    (hcf : ∀ x y, isNaN x = true ∨ isNaN y = true → cf x y = false) (rd : RegId) (v : Value) :
    s.compare ci cf rd v = t.compare ci cf rd v := by
  cases rd with
  | int k => rw [State.compare, State.compare, h.ints, valI_eq_of_sameUpToNaN h]
  | flt k => exact eq_of_sameDatum₂ hcf (h.flts k) (valF_sameDatum h v)

theorem predJnz_eq_of_sameUpToNaN (rd : RegId) : s.predJnz rd = t.predJnz rd := by
  cases rd with
  | int k => rw [State.predJnz, State.predJnz, h.ints]
  | flt k =>
    refine eq_of_sameDatum (g := fun x => fgt (fabs x) eps) (c := false) (fun x hx => ?_) (h.flts k)
    exact fgt_nan (.inl ((isNaN_fabs x).trans hx))

theorem divByZero_eq_of_sameUpToNaN (rd : RegId) (v : Value) : s.divByZero rd v = t.divByZero rd v := by
  cases rd with
  | int k => rw [State.divByZero, State.divByZero, valI_eq_of_sameUpToNaN h]
  | flt k => rfl

theorem sameAction_action (i : Instr) : SameAction (s.action i) (t.action i) := by
  have hI := valI_eq_of_sameUpToNaN h
  have hF := valF_sameDatum h
  cases i with
  | drw | hlt => exact .refl _
  | fwd =>
    have hh : s.heading = t.heading := congrArg (fun n : U16 => n.toNat % Config.degMod) (h.ints hReg)
    rw [State.action, State.action, hh]
    exact .move (respectsNaN_fadd _ _ _ _ (h.flts xReg) (sameDatum_refl _))
      (respectsNaN_fadd _ _ _ _ (h.flts yReg) (sameDatum_refl _))
  | sto rd v => exact sameAction_result h _ (fun _ _ _ _ _ hb => hb) rd (hI v) (hF v)
  | inc rd => exact sameAction_result h _ respectsNaN_fadd rd rfl (sameDatum_refl _)
  | dec rd => exact sameAction_result h _ respectsNaN_fsub rd rfl (sameDatum_refl _)
  | add rd v => exact sameAction_result h _ respectsNaN_fadd rd (hI v) (hF v)
  | sub rd v => exact sameAction_result h _ respectsNaN_fsub rd (hI v) (hF v)
  | mul rd v => exact sameAction_result h _ respectsNaN_fmul rd (hI v) (hF v)
  | div rd v =>
    rw [State.action, State.action, divByZero_eq_of_sameUpToNaN h]
    split
    · exact .refl _
    · exact sameAction_result h _ respectsNaN_fdiv rd (hI v) (hF v)
  | jnz rd a =>
    rw [State.action, State.action, predJnz_eq_of_sameUpToNaN h]
    exact .refl _
  | jeq rd v a =>
    have hp : s.predJeq rd v = t.predJeq rd v :=
      compare_eq_of_sameUpToNaN h _ (fun _ _ hn => flt_nan (.inl (fdist_nan hn))) rd v
    rw [State.action, State.action, hp]
    exact .refl _
  | jne rd v a =>
    have hp : s.predJne rd v = t.predJne rd v :=
      compare_eq_of_sameUpToNaN h _ (fun _ _ hn => fgt_nan (.inl (fdist_nan hn))) rd v
    rw [State.action, State.action, hp]
    exact .refl _
  | jgt rd v a =>
    have hp : s.predJgt rd v = t.predJgt rd v := compare_eq_of_sameUpToNaN h _ (fun _ _ => fgt_nan) rd v
    rw [State.action, State.action, hp]
    exact .refl _
  | jlt rd v a =>
    have hp : s.predJlt rd v = t.predJlt rd v := compare_eq_of_sameUpToNaN h _ (fun _ _ => flt_nan) rd v
    rw [State.action, State.action, hp]
    exact .refl _

/-! ### The shared operations keep states alike -/

theorem sameUpToNaN_setInt (k : Fin 8) (v : U16) : SameUpToNaN (s.setInt k v) (t.setInt k v) :=
  { h with ints := fun j => by rw [State.int_setInt, State.int_setInt, h.ints] }

theorem sameUpToNaN_setFlt (k : Fin 8) (hab : SameDatum a b) : SameUpToNaN (s.setFlt k a) (t.setFlt k b) :=
  { h with
    flts := fun j => by
      rw [State.flt_setFlt, State.flt_setFlt]
      split
      · exact hab
      · exact h.flts j }

theorem sameUpToNaN_advance : SameUpToNaN s.advance t.advance :=
  { h with pc := congrArg (· + 1) h.pc }

theorem sameUpToNaN_jump (a : Addr) : SameUpToNaN (s.jump a) (t.jump a) := { h with pc := rfl }

theorem sameUpToNaN_raise (c : Cause) : SameUpToNaN (s.raise c) (t.raise c) :=
  { h with status := congrArg (Status.faulted c) h.pc }

theorem sameUpToNaN_halt : SameUpToNaN s.halt t.halt := { h with status := rfl }

theorem sameUpToNaN_toggle : SameUpToNaN { s with pen := !s.pen } { t with pen := !t.pen } :=
  { h with pen := congrArg (!·) h.pen }

theorem sameUpToNaN_emitWrap (w : Bool) : SameUpToNaN (s.emitWrap w) (t.emitWrap w) := by
  cases w with
  | false => exact h
  | true => exact { h with diagout := by simp only [State.emitWrap_diagout, h.diagout, h.pc] }

theorem sameUpToNaN_plot : SameUpToNaN s.plot t.plot := by
  rw [State.plot, State.plot, ← h.pen, f2p_sameDatum (h.flts xReg), f2p_sameDatum (h.flts yReg)]
  split
  · exact { h with pixout := congrArg (· ++ _) h.pixout }
  · exact h

/-- Alike actions have alike effects on alike states. -/
theorem sameUpToNaN_apply {x y : Action} (hxy : SameAction x y) : SameUpToNaN (x.apply s) (y.apply t) := by
  cases hxy with
  | move hx hy =>
    exact sameUpToNaN_advance (sameUpToNaN_plot (sameUpToNaN_setFlt (sameUpToNaN_setFlt h xReg hx) yReg hy))
  | writeFlt k hf => exact sameUpToNaN_advance (sameUpToNaN_setFlt h k hf)
  | refl =>
    cases x with
    | toggle => exact sameUpToNaN_advance (sameUpToNaN_toggle h)
    | move x y =>
      exact sameUpToNaN_advance (sameUpToNaN_plot (sameUpToNaN_setFlt
        (sameUpToNaN_setFlt h xReg (sameDatum_refl x)) yReg (sameDatum_refl y)))
    | fault => exact sameUpToNaN_raise h _
    | halt => exact sameUpToNaN_halt h
    | branch p a =>
      cases p with
      | false => exact sameUpToNaN_advance h
      | true => exact sameUpToNaN_jump h a
    | write w =>
      cases w with
      | int k r => exact sameUpToNaN_advance (sameUpToNaN_emitWrap (sameUpToNaN_setInt h k r.1) r.2)
      | flt k f => exact sameUpToNaN_advance (sameUpToNaN_setFlt h k (sameDatum_refl f))

theorem fetch_eq_of_sameUpToNaN : t.fetch = s.fetch := by
  rw [State.fetch, State.fetch, h.prog, h.pc]

theorem step_next_of_sameUpToNaN {s' : State} (hs : step s = .next s') :
    ∃ t', step t = .next t' ∧ SameUpToNaN s' t' := by
  obtain ⟨hr, ⟨hf, rfl⟩ | ⟨i, hf, hex⟩⟩ := step_cases hs
  · exact ⟨_, step_pastEnd (h.status ▸ hr) ((fetch_eq_of_sameUpToNaN h).trans hf), sameUpToNaN_raise h _⟩
  · rw [exec_eq_apply_action, Host.Outcome.next.injEq] at hex
    subst hex
    rw [step_running (h.status ▸ hr) ((fetch_eq_of_sameUpToNaN h).trans hf), exec_eq_apply_action]
    exact ⟨_, rfl, sameUpToNaN_apply h (sameAction_action h i)⟩

theorem step_fault_of_sameUpToNaN {f : Fault} (hs : step s = .fault f) : step t = .fault f := by
  cases hst : s.status with
  | running =>
    obtain ⟨s', hn⟩ := runningMachineAlwaysSteps s hst
    rw [hn] at hs
    cases hs
  | halted => rw [← hs, step_halted hst, step_halted (h.status ▸ hst)]
  | faulted c info => rw [← hs, step_faulted hst, step_faulted (h.status ▸ hst)]

end

/-- Settles O58: being alike but for NaN bits is a simulation of `step`. -/
theorem nanBitsAreUnobservable : Obligations.NaNBitsAreUnobservable :=
  fun _ _ h => ⟨fun _ => step_next_of_sameUpToNaN h, fun _ => step_fault_of_sameUpToNaN h⟩

end Sys2Proof.Machine
end

section
/-! The families `41_drawing.md`, `42_store_arith.md` and `44_halt.md`. -/

namespace Sys2Proof.Machine

variable {s t : State} {i : Instr}

/-! ### `DRW` and `HLT` -/

/-- Settles O31. -/
theorem drwTogglesThePenOnly : Obligations.DrwTogglesThePenOnly := fun _ => rfl

/-- Settles O35. -/
theorem hltHaltsAndChangesNothingElse : Obligations.HltHaltsAndChangesNothingElse := fun _ => rfl

/-! ### `FWD` (R151 to R155) -/

/-- Settles O32. -/
theorem fwdMovesAndPlots : Obligations.FwdMovesAndPlots := by
  intro s
  obtain ⟨hx, hy, hpix, hdiag, hpc, hpen, hstatus, hregs, hprog⟩ := fwd_spec (s := s)
  exact ⟨_, rfl, hx, hy, hpix, hregs, hpc, hpen, hstatus, hdiag, hprog⟩

/-- Settles O33: `DIR(0)` is (1.0, +0.0), and the two sums from the origin are computed. -/
theorem fwdAtHeadingZeroMovesOneUnitRight : Obligations.FwdAtHeadingZeroMovesOneUnitRight := by
  intro s hh
  obtain ⟨t, hex, hx, hy, hpix, -⟩ := fwdMovesAndPlots s
  have hdir : dir ((s.int 7).toNat % 360) = (oneF, zeroF false) := by rw [dir, if_pos hh]
  rw [hdir] at hx hy
  refine ⟨t, hex, hx, hy, fun hx0 hy0 hpen => ?_⟩
  have hxt : t.flt 5 = oneF := by
    rw [hx, hx0]
    decide +kernel
  have hyt : t.flt 6 = zeroF false := by
    rw [hy, hy0]
    decide +kernel
  have hpx : f2p oneF = 1 := by decide +kernel
  have hpy : f2p (zeroF false) = 0 := by decide +kernel
  rw [hxt, hyt, hpen, hpx, hpy] at hpix
  exact ⟨hxt, hyt, hpix⟩

/-- An exact integer that is the magnitude of a finite datum is not rounded. -/
theorem round_exact {v : Int} {b : Nat} (hb : b < infBits) (hv : v.natAbs = unitsOfBits b) (zeroNeg : Bool) :
    magBits (ofBits (if v = 0 then zeroNeg else decide (v < 0)) (roundMag v.natAbs 1)) = b ∧
      valueOf (ofBits (if v = 0 then zeroNeg else decide (v < 0)) (roundMag v.natAbs 1)) = v := by
  have hlt : b < 2 ^ 63 := hb.trans infBits_lt
  rw [hv, roundMag_units hb, magBits_ofBits _ hlt, valueOf_ofBits _ hlt, ← hv]
  exact ⟨rfl, signed_natAbs v zeroNeg⟩

/-- From the origin the sum is the direction entry itself, up to the sign of a zero. -/
theorem fadd_zero_left {f : F64} (hf : isFinite f = true) :
    isNaN (fadd (zeroF false) f) = false ∧ valueOf (fadd (zeroF false) f) = valueOf f := by
  have hz : isFinite (zeroF false) = true := by decide
  have hmag : magBits f < infBits := by simpa [isFinite] using hf
  rw [fadd_finite hz hf, valueOf_zeroF, zero_add]
  exact ⟨isNaN_ofBits _ (roundMag_le _ _), (round_exact hmag (valueOf_natAbs f) _).2⟩

/-- A datum within 2^-50 of a sine or cosine is less than 2.0 away from zero. -/
theorem valueOf_lt_two_of_near {f : F64} {x : ℝ} (h : Near f x) (hx : |x| ≤ 1) :
    -(2 * (unitsPerOne : Int)) < valueOf f ∧ valueOf f < 2 * (unitsPerOne : Int) := by
  obtain ⟨-, hnear⟩ := h
  have hu : (0 : ℝ) < (unitsPerOne : ℝ) := Nat.cast_pos.mpr unitsPerOne_pos
  have hlt : |(valueOf f : ℝ) / (unitsPerOne : ℝ)| < 2 := by
    have htri := abs_sub_abs_le_abs_sub ((valueOf f : ℝ) / (unitsPerOne : ℝ)) x
    have hsmall : (1 : ℝ) / 2 ^ 50 < 1 := by norm_num
    linarith
  rw [abs_lt, lt_div_iff₀ hu, div_lt_iff₀ hu] at hlt
  obtain ⟨hlo, hhi⟩ := hlt
  constructor
  · rw [← neg_mul]
    exact_mod_cast hlo
  · exact_mod_cast hhi

theorem f2p_within_one {f : F64} (hn : isNaN f = false) (hlo : -(2 * (unitsPerOne : Int)) < valueOf f)
    (hhi : valueOf f < 2 * (unitsPerOne : Int)) : -1 ≤ (f2p f).toInt ∧ (f2p f).toInt ≤ 1 := by
  have hq : ((valueOf f).tdiv unitsPerOne).natAbs < 2 := by
    rw [Int.natAbs_tdiv, Int.natAbs_natCast]
    exact Nat.div_lt_of_lt_mul (by omega)
  rw [toInt_f2p hn]
  omega

/-- One coordinate of a `FWD` from the origin. -/
theorem f2p_of_near {f : F64} {x : ℝ} (h : Near f x) (hx : |x| ≤ 1) :
    -1 ≤ (f2p (fadd (zeroF false) f)).toInt ∧ (f2p (fadd (zeroF false) f)).toInt ≤ 1 := by
  obtain ⟨hn, hv⟩ := fadd_zero_left h.1
  obtain ⟨hlo, hhi⟩ := valueOf_lt_two_of_near h hx
  exact f2p_within_one hn (hv ▸ hlo) (hv ▸ hhi)

/-- Settles O34: sines and cosines are at most 1, so each coordinate stays below 2.0 and is truncated. -/
theorem fwdFromOriginPlotsWithinOnePixel : Obligations.FwdFromOriginPlotsWithinOnePixel := by
  intro s t hdir hx0 hy0 hpen hex
  obtain ⟨t', hex', hx, hy, hpix, -⟩ := fwdMovesAndPlots s
  rw [hex, Host.Outcome.next.injEq] at hex'
  subst hex'
  rw [hx0] at hx
  rw [hy0] at hy
  rw [hpen, if_pos rfl, hx, hy] at hpix
  obtain ⟨hcos, hsin⟩ := hdir
  obtain ⟨hx1, hx2⟩ := f2p_of_near hcos (Real.abs_cos_le_one _)
  obtain ⟨hy1, hy2⟩ := f2p_of_near hsin (Real.abs_sin_le_one _)
  exact ⟨_, hpix, hx1, hx2, hy1, hy2⟩

/-! ### `STO` (R161) -/

theorem putsInt_of_exec {k : Fin 8} {p : U16 × Bool} {r : Int} (h : exec i s = .next (s.putInt k p))
    (hp : (p.1.toNat : Int) = r % 65536 ∧ (p.2 = true ↔ ¬(0 ≤ r ∧ r < 65536))) :
    ∃ t, exec i s = .next t ∧ PutsInt s t k r :=
  ⟨_, h, putInt_putsInt k p r hp⟩

/-- A natural number that fits the register is put without a diagnostic. -/
theorem putsInt_fits {k : Fin 8} {n : U16} (h : exec i s = .next (s.putInt k (n, false))) :
    ∃ t, exec i s = .next t ∧ PutsInt s t k n.toNat := by
  have hn := n.isLt
  refine putsInt_of_exec h ?_
  simp only [Bool.false_eq_true, false_iff, not_not]
  omega

/-- Settles O36. -/
theorem stoToIntegerRegister : Obligations.StoToIntegerRegister := by
  intro s k v
  have h := putsInt_fits (i := .sto (.int k) v)
    (arith_int (fun _ b => (b, false)) (fun _ b => b) k (s.valI v) (s.valF v))
  rcases v with n | (j | j) <;> exact h

/-- Settles O37. -/
theorem stoToFloatRegister : Obligations.StoToFloatRegister := by
  intro s k v
  have h := putsFlt_of_exec (i := .sto (.flt k) v)
    (arith_flt (fun _ b => (b, false)) (fun _ b => b) k (s.valI v) (s.valF v))
  rcases v with n | (j | j) <;> exact h

/-! ### Integer arithmetic (R130, R162 to R166) -/

/-- Settles O38: each instruction puts its primitive's result, and each primitive meets its exact result. -/
theorem integerArithmeticWrapsWithADiagnostic : Obligations.IntegerArithmeticWrapsWithADiagnostic := by
  intro s k v
  refine ⟨?inc, ?dec, ?add, ?sub, ?mul⟩
  case inc => exact putsInt_of_exec (arith_int iadd fadd k 1 oneF) (iadd_exact (s.int k) 1)
  case dec => exact putsInt_of_exec (arith_int isub fsub k 1 oneF) (isub_exact (s.int k) 1)
  case add => exact putsInt_of_exec (arith_int iadd fadd k (s.valI v) (s.valF v)) (iadd_exact _ _)
  case sub => exact putsInt_of_exec (arith_int isub fsub k (s.valI v) (s.valF v)) (isub_exact _ _)
  case mul => exact putsInt_of_exec (arith_int imul fmul k (s.valI v) (s.valF v)) (imul_exact _ _)

/-! ### Integer `DIV` (R167, R231) -/

theorem exec_div_int (s : State) (k : Fin 8) (v : Value) :
    exec (.div (.int k) v) s = if s.valI v = 0#16 then .next (s.raise .divideByZero)
      else .next (s.putInt k (idiv (s.int k) (s.valI v))) := by
  simp only [exec, execDiv, divByZero_int, decide_eq_true_eq, arith_int]

/-- Settles O41. -/
theorem integerDivisionByZeroFaults : Obligations.IntegerDivisionByZeroFaults := by
  intro s k v hz
  rw [exec_div_int, if_pos hz]
  rfl

/-- Settles O40. -/
theorem integerDivisionIsTheUnsignedQuotient : Obligations.IntegerDivisionIsTheUnsignedQuotient := by
  intro s k v hz
  obtain ⟨hq, hw⟩ := idiv_exact (s.int k) (s.valI v)
  have hpair : idiv (s.int k) (s.valI v) = ((idiv (s.int k) (s.valI v)).1, false) := Prod.ext rfl hw
  have hex := exec_div_int s k v
  rw [if_neg hz, hpair] at hex
  obtain ⟨t, ht, hputs⟩ := putsInt_fits hex
  rw [hq, Int.natCast_ediv] at hputs
  refine ⟨t, ht, hputs, ?_⟩
  rw [hex, Host.Outcome.next.injEq] at ht
  obtain ⟨-, hdiag, -⟩ := putInt_spec (s := s) k ((idiv (s.int k) (s.valI v)).1, false)
  rw [← ht, hdiag, if_neg Bool.false_ne_true, List.append_nil]

theorem f2u_eq_zero_iff (f : F64) : f2u f = 0#16 ↔ isNaN f = true ∨ flt f oneF = true := by
  cases hn : isNaN f with
  | true => exact iff_of_true (if_pos hn) (.inl rfl)
  | false =>
    have hu : (0 : Int) < unitsPerOne := Int.natCast_pos.mpr unitsPerOne_pos
    have hdiv := Int.ediv_lt_iff_lt_mul (a := valueOf f) (b := 1) hu
    have hclamp := toNat_f2u hn
    rw [one_mul] at hdiv
    rw [flt_iff hn (by decide), valueOf_oneF, ← hdiv, ← BitVec.toNat_inj, BitVec.toNat_ofNat]
    simp only [Bool.false_eq_true, false_or]
    omega

/-- Settles O42: the operand is the `F2U` of the register. -/
theorem integerDivisionByFloatFaultsBelowOne : Obligations.IntegerDivisionByFloatFaultsBelowOne := by
  intro s t k j hr hex
  have hv : s.valI (.reg (.flt j)) = f2u (s.flt j) := rfl
  rw [status_exec hex, statusAfter_div_int, hr, hv, ← f2u_eq_zero_iff]
  split
  case isTrue hz => exact iff_of_true rfl hz
  case isFalse hz => exact iff_of_false nofun hz

end Sys2Proof.Machine
end

section
/-! The family `43_jumps.md`: the predicates of both banks and the tolerance (R190 to R198), and the forms that
are short for others (R103, R139). -/

namespace Sys2Proof.Machine

variable {s : State} {x y : F64}

/-! ### A conditional jump changes the `pc` alone (R190) -/

theorem condJump_of_iff {p : Bool} {P : Prop} [Decidable P] (h : p = true ↔ P) (a : Addr) (s : State) :
    condJump p a s = .next { s with pc := if P then a.toNat else s.pc + 1 } := by
  by_cases hP : P
  · rw [condJump, if_pos (h.mpr hP), if_pos hP]
    rfl
  · rw [condJump, if_neg (mt h.mp hP), if_neg hP]
    rfl

theorem condJump_not_taken {p : Bool} (h : p = false) (a : Addr) (s : State) :
    condJump p a s = .next { s with pc := s.pc + 1 } := by
  rw [h]
  rfl

/-- Settles O45. -/
theorem integerJumpsCompareUnsigned : Obligations.IntegerJumpsCompareUnsigned := by
  intro s k v a
  refine ⟨?jnz, ?jeq, ?jne, ?jgt, ?jlt⟩
  case jnz => exact condJump_of_iff bne_iff_ne a s
  case jeq => exact condJump_of_iff beq_iff_eq a s
  case jne => exact condJump_of_iff bne_iff_ne a s
  case jgt => exact condJump_of_iff decide_eq_true_iff a s
  case jlt => exact condJump_of_iff decide_eq_true_iff a s

/-- Settles O46. -/
theorem floatJumpsCompareWithTolerance : Obligations.FloatJumpsCompareWithTolerance :=
  fun s _ _ a => ⟨condJump_of_iff Iff.rfl a s, condJump_of_iff Iff.rfl a s, condJump_of_iff Iff.rfl a s,
    condJump_of_iff Iff.rfl a s, condJump_of_iff Iff.rfl a s⟩

/-- Settles O48: no comparison with a NaN holds, and the distance from or to a NaN is one. -/
theorem nanNeverJumpsOnAFloatRegister : Obligations.NaNNeverJumpsOnAFloatRegister := by
  intro s k v a
  refine ⟨fun h => ?jnz, fun h => ⟨?jeq, ?jne, ?jgt, ?jlt⟩⟩
  case jnz => exact condJump_not_taken (fgt_nan (.inl ((isNaN_fabs _).trans h))) a s
  case jeq => exact condJump_not_taken (flt_nan (.inl (fdist_nan h))) a s
  case jne => exact condJump_not_taken (fgt_nan (.inl (fdist_nan h))) a s
  case jgt => exact condJump_not_taken (fgt_nan h) a s
  case jlt => exact condJump_not_taken (flt_nan h) a s

/-! ### The tolerance band (R198) -/

theorem flt_irrefl (x : F64) : flt x x = false := by simp [flt]

theorem flt_asymm (h : flt x y = true) : flt y x = false := by
  rw [Bool.eq_false_iff, ne_eq, flt_eq_true_iff]
  obtain ⟨-, -, hlt⟩ := (flt_eq_true_iff x y).mp h
  exact fun ⟨_, _, hgt⟩ => hlt.not_gt hgt

/-- A datum without a sign is below, at or above the tolerance, or a NaN. -/
theorem eps_trichotomy (hneg : isNeg x = false) :
    flt x eps = true ∨ x = eps ∨ fgt x eps = true ∨ isNaN x = true := by
  cases hn : isNaN x with
  | true => exact .inr (.inr (.inr rfl))
  | false =>
    rw [flt_iff hn eps_notNaN, fgt_iff hn eps_notNaN]
    rcases lt_trichotomy (valueOf x) (valueOf eps) with hlt | heq | hgt
    · exact .inl hlt
    · exact .inr (.inl (eq_of_valueOf hneg (isNeg_of_pos eps_pos) heq))
    · exact .inr (.inr (.inl hgt))

theorem isNaN_fdist_iff (x y : F64) :
    isNaN (fdist x y) = true ↔ isNaN x = true ∨ isNaN y = true ∨ (isInf x = true ∧ y = x) := by
  constructor
  · intro h
    by_contra hno
    simp only [not_or, Bool.not_eq_true, not_and] at hno
    obtain ⟨hx, hy, hne⟩ := hno
    have hnotNaN : isNaN (fdist x y) = false := by
      rcases isFinite_or x with hfx | hix | hnx
      · rcases isFinite_or y with hfy | hiy | hny
        · exact fdist_finite_notNaN hfx hfy
        · have hxy : x ≠ y := fun e => by rw [e, not_finite_of_inf hiy] at hfx; cases hfx
          rw [fdist_inf hx hy (.inr hiy) hxy, not_nan_of_inf (isInf_infF false)]
        · rw [hy] at hny; cases hny
      · rw [fdist_inf hx hy (.inl hix) (Ne.symm (hne hix)), not_nan_of_inf (isInf_infF false)]
      · rw [hx] at hnx; cases hnx
    rw [hnotNaN] at h
    cases h
  · rintro (h | h | ⟨h, rfl⟩)
    · exact fdist_nan (.inl h)
    · exact fdist_nan (.inr h)
    · rw [fdist, isNaN_fabs, fsub_equal_infs h h rfl]
      exact isNaN_nanResult _ _ _

theorem predJeq_flt (s : State) (k : Fin 8) (v : Value) :
    s.predJeq (.flt k) v = flt (fdist (s.flt k) (s.valF v)) eps := rfl

theorem predJne_flt (s : State) (k : Fin 8) (v : Value) :
    s.predJne (.flt k) v = flt eps (fdist (s.flt k) (s.valF v)) := fgt_eq_flt _ _

/-- Settles O47: `JEQ` and `JNE` compare the one distance with `EPS`, and it has no sign. -/
theorem toleranceBandOfJeqAndJne : Obligations.ToleranceBandOfJeqAndJne := by
  intro s k v
  rw [predJeq_flt, predJne_flt]
  refine ⟨fun h => ⟨h, flt_asymm h⟩, fun h => ?onBand, fun h => ?above,
    fun h => ⟨flt_nan (.inl h), flt_nan (.inr h)⟩, eps_trichotomy (isNeg_fabs _), isNaN_fdist_iff _ _⟩
  case onBand =>
    rw [show fdist (s.flt k) (s.valF v) = eps from h]
    exact ⟨flt_irrefl eps, flt_irrefl eps⟩
  case above =>
    rw [fgt_eq_flt] at h
    exact ⟨flt_asymm h, h⟩

/-! ### The tolerance separates integers (R8, R191) -/

theorem valueOf_fdist_self (hx : isFinite x = true) (hy : isFinite y = true) (h : valueOf x = valueOf y) :
    valueOf (fdist x y) = 0 := by
  rw [valueOf_fdist hx hy, h, sub_self, Int.natAbs_zero, roundMag_zero one_pos]
  rfl

theorem one_le_valueOf_fdist (hx : isFinite x = true) (hy : isFinite y = true) {m n : Int}
    (hm : valueOf x = m * unitsPerOne) (hn : valueOf y = n * unitsPerOne) (hne : m ≠ n) :
    (unitsPerOne : Int) ≤ valueOf (fdist x y) := by
  rw [valueOf_fdist hx hy, hm, hn, ← sub_mul, Int.natAbs_mul, Int.natAbs_natCast]
  have hpos : 0 < (m - n).natAbs := Int.natAbs_pos.mpr (sub_ne_zero.mpr hne)
  exact Int.ofNat_le.mpr (one_le_roundMag (Nat.le_mul_of_pos_left _ hpos))

/-- Settles O49: equal integers are at distance zero, different ones at least 1.0 apart after rounding. -/
theorem epsilonSeparatesIntegers : Obligations.EpsilonSeparatesIntegers := by
  obtain ⟨hzero, hone⟩ := eps_bounds
  refine ⟨hzero, hone, fun s k v m n hx hy hm hn => ?_⟩
  have hnotNaN := fdist_finite_notNaN hx hy
  rw [predJeq_flt, predJne_flt]
  by_cases hmn : m = n
  · have hlt : flt (fdist (s.flt k) (s.valF v)) eps = true := by
      rw [flt_iff hnotNaN eps_notNaN, valueOf_fdist_self hx hy (by rw [hm, hn, hmn])]
      exact eps_pos
    rw [hlt, flt_asymm hlt, decide_eq_true hmn, decide_eq_false (not_not.mpr hmn)]
    exact ⟨rfl, rfl⟩
  · have hgt : flt eps (fdist (s.flt k) (s.valF v)) = true := by
      rw [flt_iff eps_notNaN hnotNaN]
      exact eps_lt_one.trans_le (one_le_valueOf_fdist hx hy hm hn hmn)
    rw [hgt, flt_asymm hgt, decide_eq_false hmn, decide_eq_true hmn]
    exact ⟨rfl, rfl⟩

/-! ### Short forms (R103, R192) -/

theorem fabs_eq_of_magBits (h : magBits x = magBits y) : fabs x = fabs y := by
  rw [← ofBits_fields (fabs x), ← ofBits_fields (fabs y), isNeg_fabs, isNeg_fabs, magBits_fabs, magBits_fabs, h]

/-- The distance from zero is the absolute value: nothing is rounded. -/
theorem fdist_zero (h : isNaN x = false) : fdist x (zeroF false) = fabs x := by
  have hz : isFinite (zeroF false) = true := by decide
  rcases isFinite_or x with hf | hi | hn
  · have hmag : magBits x < infBits := by simpa [isFinite] using hf
    refine fabs_eq_of_magBits ?_
    rw [fsub_finite hf hz, valueOf_zeroF, sub_zero]
    exact (round_exact hmag (valueOf_natAbs x) _).1
  · have hsub : fsub x (zeroF false) = x := (fsub_inf hi (not_nan_of_finite hz) fun h => absurd h (by decide)).1
    rw [fdist, hsub]
  · rw [h] at hn
    cases hn

theorem predJnz_eq_predJne_zero (s : State) (rd : RegId) : s.predJnz rd = s.predJne rd (.imm 0) := by
  cases rd with
  | int k => rfl
  | flt k =>
    rw [predJne_flt, State.valF, u2f_zero, State.predJnz, fgt_eq_flt]
    cases hn : isNaN (s.flt k) with
    | false => rw [fdist_zero hn]
    | true => rw [flt_nan (.inr (fdist_nan (.inl hn))), flt_nan (.inr ((isNaN_fabs _).trans hn))]

/-- Settles O43: 1.0 is the `U2F` of 1, and the distance from zero is the absolute value. -/
theorem incDecJnzAreShortForms : Obligations.IncDecJnzAreShortForms := by
  intro s rd a
  refine ⟨?inc, ?dec, ?jnz⟩
  case inc => rw [exec, exec, execInc, execAdd, State.valI, State.valF, u2f_one]
  case dec => rw [exec, exec, execDec, execSub, State.valI, State.valF, u2f_one]
  case jnz => rw [exec, exec, execJnz, execJne, predJnz_eq_predJne_zero]

/-! ### The same register on both sides (R139) -/

/-- A float register is `JEQ` to itself exactly when it is finite. -/
theorem flt_fdist_self (x : F64) : flt (fdist x x) eps = true ↔ isFinite x = true := by
  rcases isFinite_or x with hf | hi | hn
  · refine iff_of_true ?_ hf
    rw [flt_iff (fdist_finite_notNaN hf hf) eps_notNaN, valueOf_fdist_self hf hf rfl]
    exact eps_pos
  · rw [flt_nan (.inl ((isNaN_fdist_iff x x).mpr (.inr (.inr ⟨hi, rfl⟩)))), not_finite_of_inf hi]
  · rw [flt_nan (.inl (fdist_nan (.inl hn))), not_finite_of_nan hn]

/-- Settles O44: each clause is the instruction's own statement with the register as its operand. -/
theorem sameRegisterUsesTheOldValue : Obligations.SameRegisterUsesTheOldValue := by
  intro s k a
  obtain ⟨-, -, ⟨tadd, hadd, hsum, -⟩, ⟨tsub, hsub, hdiff, hdiag, -⟩, -⟩ :=
    integerArithmeticWrapsWithADiagnostic s k (.reg (.int k))
  obtain ⟨-, -, -, -, ⟨tmul, hmul, hprod, -⟩, -⟩ := floatArithmeticIsSilent.2.2 s k (.reg (.flt k))
  have hv : s.valI (.reg (.int k)) = s.int k := rfl
  rw [hv] at hsum hdiff hdiag
  refine ⟨⟨tadd, hadd, by omega⟩, ⟨tsub, hsub, ?diff, ?diag⟩, ⟨tmul, hmul, hprod⟩, fun hne => ?div,
    fun hz => ?fault, ?jeqInt, condJump_of_iff (flt_fdist_self _) a s⟩
  case diff => exact BitVec.eq_of_toNat_eq (by rw [BitVec.toNat_ofNat]; omega)
  case diag => simpa using hdiag
  case div =>
    obtain ⟨t, hex, ⟨hquot, -⟩, -⟩ := integerDivisionIsTheUnsignedQuotient s k (.reg (.int k)) hne
    have hpos : ((s.int k).toNat : Int) ≠ 0 := fun h => hne (BitVec.eq_of_toNat_eq (Int.ofNat_inj.mp h))
    rw [hv, Int.ediv_self hpos] at hquot
    exact ⟨t, hex, BitVec.eq_of_toNat_eq (by rw [BitVec.toNat_ofNat]; omega)⟩
  case fault => exact integerDivisionByZeroFaults s k (.reg (.int k)) hz
  case jeqInt =>
    obtain ⟨-, hjeq, -⟩ := integerJumpsCompareUnsigned s k (.reg (.int k)) a
    rw [hjeq, if_pos hv.symm]

end Sys2Proof.Machine
end
